-- ==== Sys2Proof/Word.lean ====
section
/-! DEFINITION. The word types of the block: bus data, bytes, durations (00_scope.md R5, R6; 20_memory.md R50). -/

namespace Sys2Proof

/-- A bus data word and a register: REG_W = 32 bits (20_memory.md R50). -/
abbrev Word := BitVec 32

/-- A character code or a byte lane (30_encoding.md R75, 20_memory.md R52). -/
abbrev Byte := BitVec 8

/-- A duration in ticks, unsigned, DUR_W = 16 bits (30_encoding.md R74). -/
abbrev Dur := BitVec 16

/-- A bus byte address, ADDR_W = 16 bits (20_memory.md R50). -/
abbrev Addr := BitVec 16

end Sys2Proof
end

