-- ==== Sys2Proof/Syntax.lean ====
section
/-! DEFINITION. The instructions: one constructor per row of spec/opcode_table.json (30_encoding.md R76, R77). -/

namespace Sys2Proof

/-- A command of the block. The fields a command ignores are no part of it (30_encoding.md R78). -/
inductive Instr where
  /-- `tri.enc` on TX_CMD (40_symbol_codec.md R94). -/
  | triEnc
  /-- `wave.enc` on TX_CMD, with PSEL and REPEAT (41_waveform_encoder.md R113). -/
  | waveEnc (psel : BitVec 2) (rep : BitVec 8)
  /-- `wave.dec` on RX_CMD (42_waveform_decoder.md R137). -/
  | waveDec
  /-- `tri.dec` on RX_CMD (40_symbol_codec.md R95). -/
  | triDec
  /-- A reserved opcode on TX_CMD (30_encoding.md R79). -/
  | reservedTx (op : BitVec 4)
  /-- A reserved opcode on RX_CMD (30_encoding.md R79). -/
  | reservedRx (op : BitVec 4)
deriving DecidableEq, Repr

end Sys2Proof
end

