-- ==== Sys2Proof/WellFormed.lean ====
section
/-! DEFINITION. Which instruction terms stand for a command word: a reserved-opcode term must hold an opcode that is
reserved on its register (30_encoding.md R76, R77). -/

namespace Sys2Proof

/-- The opcodes reserved on TX_CMD: 0x0 and 0x3 to 0xF (30_encoding.md R76). -/
def reservedOnTx (op : BitVec 4) : Bool := op != 0x1 && op != 0x2

/-- The opcodes reserved on RX_CMD: 0x0 to 0x2 and 0x5 to 0xF (30_encoding.md R77). -/
def reservedOnRx (op : BitVec 4) : Bool := op != 0x3 && op != 0x4

/-- Well-formed instructions. Every PSEL and every REPEAT is legal (30_encoding.md R72, R73). -/
def Instr.wf : Instr → Bool
  | .triEnc => true
  | .waveEnc _ _ => true
  | .waveDec => true
  | .triDec => true
  | .reservedTx op => reservedOnTx op
  | .reservedRx op => reservedOnRx op

end Sys2Proof
end

