-- ==== Sys2Proof/Decode.lean ====
section
/-! DEFINITION. Decoding of command words and the encoder (30_encoding.md R70 to R80). -/

namespace Sys2Proof

/-- The two command registers (30_encoding.md R70). -/
inductive CmdReg where
  | tx
  | rx
deriving DecidableEq, Repr

/-- Why bytes are no command. -/
inductive DecodeError where
  /-- A command is one 32-bit word, "no other length and no prefix exists" (30_encoding.md R70). -/
  | notOneWord
deriving DecidableEq, Repr

/-- OP = cmd[3:0] (30_encoding.md R71). -/
def opField (w : Word) : BitVec 4 := w.extractLsb' 0 4

/-- PSEL = cmd[5:4] (30_encoding.md R72). -/
def pselField (w : Word) : BitVec 2 := w.extractLsb' 4 2

/-- REPEAT = cmd[15:8] (30_encoding.md R73). -/
def repeatField (w : Word) : BitVec 8 := w.extractLsb' 8 8

/-- The opcode map of TX_CMD (30_encoding.md R76). -/
def decodeTx (w : Word) : Instr :=
  if opField w = 0x1 then .triEnc
  else if opField w = 0x2 then .waveEnc (pselField w) (repeatField w)
  else .reservedTx (opField w)

/-- The opcode map of RX_CMD (30_encoding.md R77). -/
def decodeRx (w : Word) : Instr :=
  if opField w = 0x3 then .waveDec
  else if opField w = 0x4 then .triDec
  else .reservedRx (opField w)

/-- Every 32-bit value written to a command register decodes (30_encoding.md R80). -/
def decode (r : CmdReg) (w : Word) : Instr :=
  match r with
  | .tx => decodeTx w
  | .rx => decodeRx w

/-- A word from its byte lanes, lane 0 first (20_memory.md R52). -/
def wordOfLanes (b0 b1 b2 b3 : Byte) : Word :=
  b0.setWidth 32 ||| b1.setWidth 32 <<< 8 ||| b2.setWidth 32 <<< 16 ||| b3.setWidth 32 <<< 24

/-- Decoding of bytes as the bus lays a word out: exactly one word, or refused by name. -/
def decodeBytes (r : CmdReg) (bytes : List Byte) : Except DecodeError Instr :=
  match bytes with
  | [b0, b1, b2, b3] => .ok (decode r (wordOfLanes b0 b1 b2 b3))
  | _ => .error .notOneWord

/-- The register an instruction's word is written to (30_encoding.md R76, R77). -/
def Instr.cmdReg : Instr → CmdReg
  | .triEnc => .tx
  | .waveEnc _ _ => .tx
  | .waveDec => .rx
  | .triDec => .rx
  | .reservedTx _ => .tx
  | .reservedRx _ => .rx

/-- A command word from its three fields, reserved bits 0 (30_encoding.md R70). -/
def commandWord (op : BitVec 4) (psel : BitVec 2) (rep : BitVec 8) : Word :=
  op.setWidth 32 ||| psel.setWidth 32 <<< 4 ||| rep.setWidth 32 <<< 8

/-- The word of an instruction, every ignored bit 0 (30_encoding.md R70, R83). -/
def encode : Instr → Word
  | .triEnc => commandWord 0x1 0 0
  | .waveEnc psel rep => commandWord 0x2 psel rep
  | .waveDec => commandWord 0x3 0 0
  | .triDec => commandWord 0x4 0 0
  | .reservedTx op => commandWord op 0 0
  | .reservedRx op => commandWord op 0 0

/-- The bits of a word that decoding an instruction reads: OP, and for `wave.enc` also PSEL and REPEAT
(30_encoding.md R78). -/
def Instr.readBits : Instr → Word
  | .waveEnc _ _ => 0x0000FF3F
  | _ => 0x0000000F

/-- The register a bare table word is taken to be for: RX_CMD for the two RX opcodes, else TX_CMD.
DESIGN CHOICE (notes/assumptions/3.md): the table's bits do not name the register. -/
def tableReg (w : Word) : CmdReg :=
  if opField w = 0x3 ∨ opField w = 0x4 then .rx else .tx

/-- The instruction the decoder reads from a word of the opcode table, its four byte lanes laid out as R52 says;
none for a table width above one word. -/
def decodeTableWord (nbits w : Nat) : Option Instr :=
  if nbits ≤ 32 then
    let v : Word := BitVec.ofNat 32 (w % 2 ^ nbits)
    (decodeBytes (tableReg v)
      [v.extractLsb' 0 8, v.extractLsb' 8 8, v.extractLsb' 16 8, v.extractLsb' 24 8]).toOption
  else none

end Sys2Proof
end

