-- ==== Sys2Proof/Config.lean ====
section
/-! DEFINITION. What is fixed when the block is built: the configuration record of 00_scope.md section 4, the
structural constants beside it, the values the spec leaves OPEN (opaque, no body), and the free values. -/

namespace Sys2Proof

/-- A pulse pair `(a, d)`: active ticks, then idle ticks (00_scope.md R7). -/
structure PulsePair where
  active : Dur
  idle   : Dur
deriving DecidableEq, Repr, Inhabited

/-- A PulseProfile: three named pulse pairs (41_waveform_encoder.md R110). -/
structure Profile where
  sync : PulsePair
  high : PulsePair
  low  : PulsePair
deriving DecidableEq, Repr, Inhabited

/-- A ToleranceWindow (center, spread) in ticks (42_waveform_decoder.md R130). -/
structure Window where
  center : Nat
  spread : Nat
deriving DecidableEq, Repr

/-- What `wave.dec` does with a pair inside both shapes (42_waveform_decoder.md R132, decision D14). -/
inductive AmbigPolicy where
  | reject
  | highFirst
deriving DecidableEq, Repr

/-- The four bus agents (60_exceptions.md R180). -/
inductive AgentId where
  | hostTx
  | hostRx
  | pulseGen
  | capture
deriving DecidableEq, Repr

/-- The configuration record (00_scope.md section 4, 10_state.md R37): a parameter of the model, never written.
The last three fields are read by no rule. -/
structure Config where
  winShort    : Window
  winLong     : Window
  trailMin    : Nat
  trailMax    : Nat
  profile0    : Profile
  profile1    : Profile
  ambigPolicy : AmbigPolicy
  txDepth     : Nat
  tickPeriod  : Nat
  cmdLatency  : Nat
  activeLevel : Bool
deriving DecidableEq, Repr

namespace Config

/-- The constraints a configuration record obeys (00_scope.md R3); durations are 16 bits by their type.
DESIGN CHOICE (notes/assumptions/17.md): R3 lets a model refuse a record that breaks one. This one refuses none: no
function that takes a record tests `Legal`, and a claim that needs it has it as a hypothesis. -/
abbrev Legal (c : Config) : Prop :=
  (c.winShort.spread ≤ c.winShort.center ∧ c.winShort.center + c.winShort.spread ≤ 2 ^ 16 - 1) ∧
  (c.winLong.spread ≤ c.winLong.center ∧ c.winLong.center + c.winLong.spread ≤ 2 ^ 16 - 1) ∧
  c.trailMin < c.trailMax ∧ c.trailMax ≤ 2 ^ 16 ∧ c.txDepth ≤ 15360

/-- NSYM: symbols in a tri-state code (00_scope.md section 4). -/
abbrev nSym : Nat := 12
/-- NBITS: data bits in a frame. -/
abbrev nBits : Nat := 24
/-- FRAME_PAIRS: pulse pairs per frame and per valid capture. -/
abbrev framePairs : Nat := 25
/-- UNITS_PER_BIT: divisor factor of the calibration. -/
abbrev unitsPerBit : Nat := 4

/-! The OPEN parameters (decisions D17, D18, D3, D34, D35): nothing constrains them. -/

/-- SYNC0 is OPEN (decision D17). -/
opaque sync0 : PulsePair
/-- SYNC1 is OPEN (decision D18). -/
opaque sync1 : PulsePair
/-- HIGH1 is OPEN (decision D18). -/
opaque high1 : PulsePair
/-- LOW1 is OPEN (decision D18). -/
opaque low1 : PulsePair
/-- TICK_PERIOD is OPEN (decision D35). -/
opaque openTickPeriod : Nat
/-- CMD_LATENCY is OPEN (decision D3). -/
opaque openCmdLatency : Nat
/-- ACTIVE_LEVEL is OPEN (decision D34). -/
opaque openActiveLevel : Bool

/-- The record of the machine: the values of 00_scope.md section 4, OPEN where that table says OPEN.
DESIGN CHOICE (notes/assumptions/4.md): where the table gives a default, the machine takes it. -/
def built : Config where
  winShort    := ⟨328, 300⟩
  winLong     := ⟨880, 350⟩
  trailMin    := 150
  trailMax    := 400
  profile0    := ⟨sync0, ⟨328, 880⟩, ⟨880, 328⟩⟩
  profile1    := ⟨sync1, high1, low1⟩
  ambigPolicy := .reject
  txDepth     := 256
  tickPeriod  := openTickPeriod
  cmdLatency  := openCmdLatency
  activeLevel := openActiveLevel

/-- What a host variable holds that its agent never assigned: a free value, by agent and name
(notes/assumptions/8.md). -/
opaque freeHostVar : AgentId → Nat → Word

end Config
end Sys2Proof
end

