-- ==== Sys2Proof/Machine/State.lean ====
section
/-! DEFINITION. The state of the machine as plain data: the registers and buffers of 10_state.md, the bus agents with
their host programs, and the order in which the bus serves them; and the state right after reset. -/

namespace Sys2Proof.Machine

/-- A STATUS register's two fields; bits 31:8 read 0 (10_state.md R22, R29). -/
structure Status where
  err    : BitVec 4
  lastOp : BitVec 4
deriving DecidableEq, Repr

/-- Three symbol registers, symbol j in byte lane j mod 4 of register j div 4 (10_state.md R25, R32). -/
structure SymRegs where
  sym0 : Word
  sym1 : Word
  sym2 : Word
deriving DecidableEq, Repr

/-- The TX channel (10_state.md R20 to R27). TX_CMD keeps no value and has no field. -/
structure TxChannel where
  status : Status
  bits   : Word
  len    : BitVec 16
  sym    : SymRegs
  buf    : List Word
deriving DecidableEq, Repr

/-- The RX channel (10_state.md R28 to R34). RX_CMD keeps no value and has no field. -/
structure RxChannel where
  status : Status
  bits   : Word
  tpb    : Word
  sym    : SymRegs
  capcnt : BitVec 16
  cap    : Vector Word 25
deriving DecidableEq, Repr

/-- A 32-bit unsigned expression over host variables (30_encoding.md R83). A variable's name is a number. -/
inductive HostExpr where
  | lit    (w : Word)
  | var    (x : Nat)
  | add    (a b : HostExpr)
  | band   (a b : HostExpr)
  | bor    (a b : HostExpr)
  | shl    (a b : HostExpr)
  | shr    (a b : HostExpr)
  /-- `<name>.ERR` means `<name>[3:0]`. -/
  | err    (a : HostExpr)
  /-- `<name>.LAST_OP` means `<name>[7:4]`. -/
  | lastOp (a : HostExpr)
deriving DecidableEq, Repr

/-- The comparisons of a host branch: `=`, `!=`, `<` (30_encoding.md R83). -/
inductive HostCmp where
  | eq
  | ne
  | lt
deriving DecidableEq, Repr

/-- `<reg>` of 30_encoding.md R82: a register name, a buffer entry by index, or a byte address `@a`. -/
inductive RegRef where
  | txCmd | txStatus | txBits | txLen | txSym0 | txSym1 | txSym2
  | rxCmd | rxStatus | rxBits | rxTpb | rxSym0 | rxSym1 | rxSym2 | rxCapcnt
  | cap   (k : HostExpr)
  | txbuf (k : HostExpr)
  | byteAddress (a : HostExpr)
deriving DecidableEq, Repr

/-- One operation of a host program (30_encoding.md R82, R83). `size` is the access width in bytes; the spec's `wr`
and `rd` have size 4, and every other size is refused (20_memory.md R54). -/
inductive HostOp where
  | wr     (reg : RegRef) (size : Nat) (value : HostExpr)
  | rd     (reg : RegRef) (size : Nat) (name : Nat)
  | assign (name : Nat) (value : HostExpr)
  | ifGoto (a : HostExpr) (cmp : HostCmp) (b : HostExpr) (label : Nat)
  | goto   (label : Nat)
  | label  (label : Nat)
deriving DecidableEq, Repr

/-- One bus agent: its program, what of it is still to do, and its host variables by rising name. -/
structure AgentState where
  prog : List HostOp
  todo : List HostOp
  vars : List (Nat × Word)
deriving DecidableEq, Repr

/-- The four agents (60_exceptions.md R180). -/
structure Agents where
  hostTx   : AgentState
  hostRx   : AgentState
  pulseGen : AgentState
  capture  : AgentState
deriving DecidableEq, Repr

/-- Whose turn it is on the bus (20_memory.md R59): an agent's next host operation, or reset, which takes effect
between two accesses (70_reset_and_hazards.md R190). -/
inductive Turn where
  | agent (a : AgentId)
  | reset
deriving DecidableEq, Repr

/-- Everything the spec gives the machine, and the agents that use it. -/
structure State where
  tx       : TxChannel
  rx       : RxChannel
  agents   : Agents
  schedule : List Turn
deriving DecidableEq, Repr

/-- Why the machine stops with a fault. The block itself never faults (60_exceptions.md R160). -/
inductive Fault where
  /-- Raised by a host operation whose address is 2^16 or more: the bus has 16-bit addresses (20_memory.md R50),
  so there is no such access. Safe: the spec gives the access no effect. -/
  | outsideAddressSpace
deriving DecidableEq, Repr

/-- Why the machine refuses to go on. -/
inductive Refusal where
  /-- Raised by an arm of exec whose instruction has no meaning yet; no arm raises it. Safe. -/
  | notModelled (mnemonic : String)
  /-- Raised by an access of a width other than 32 bits (20_memory.md R54). Safe: R54 asks for it. -/
  | notWordAccess
  /-- Raised by an access with address[1:0] ≠ 0 (20_memory.md R54). Safe: R54 asks for it. -/
  | misalignedAccess
  /-- Raised by a jump of a host program to a label it does not have; such a text is no program of R83. Safe. -/
  | noSuchLabel
deriving DecidableEq, Repr

/-- A TX channel with every register and buffer entry 0, for the build of a record: TXBUF has TX_DEPTH entries
(10_state.md R27, R38). -/
def TxChannel.resetWith (c : Config) : TxChannel where
  status := ⟨0, 0⟩
  bits   := 0
  len    := 0
  sym    := ⟨0, 0, 0⟩
  buf    := List.replicate c.txDepth 0

/-- An RX channel with every register and buffer entry 0 (10_state.md R38). -/
def RxChannel.reset : RxChannel where
  status := ⟨0, 0⟩
  bits   := 0
  tpb    := 0
  sym    := ⟨0, 0, 0⟩
  capcnt := 0
  cap    := Vector.replicate 25 0

/-- An agent with nothing to do (notes/assumptions/2.md). -/
def AgentState.idle : AgentState where
  prog := []
  todo := []
  vars := []

/-- The build of a record right after reset (10_state.md R38, 70_reset_and_hazards.md R190, R191): every register and
buffer entry 0; no host program is placed in any agent. -/
def State.resetWith (c : Config) : State where
  tx       := TxChannel.resetWith c
  rx       := RxChannel.reset
  agents   := ⟨.idle, .idle, .idle, .idle⟩
  schedule := []

/-- The machine right after reset: the build of the default record (notes/assumptions/4.md). -/
def State.reset : State := State.resetWith Config.built

end Sys2Proof.Machine
end

