-- ==== Sys2Proof/Machine/Flags.lean ====
section
/-! DEFINITION. The error codes of 60_exceptions.md R161 and the two STATUS fields (10_state.md R22, R29). -/

namespace Sys2Proof.Machine

/-- The named error codes (60_exceptions.md R161). -/
inductive ErrCode where
  | ok
  | invArgument
  | invProtocol
  | noMem
  | invCodeLen
  | invCodeSym
  | invFrame
  | alreadyInit
deriving DecidableEq, Repr

/-- The 4-bit number of an error code (60_exceptions.md R161). -/
def ErrCode.code : ErrCode → BitVec 4
  | .ok => 0
  | .invArgument => 1
  | .invProtocol => 2
  | .noMem => 3
  | .invCodeLen => 4
  | .invCodeSym => 5
  | .invFrame => 6
  | .alreadyInit => 7

/-- What a command leaves in its STATUS register: ERR and LAST_OP = cmd[3:0] (60_exceptions.md R164). -/
def Status.ofCommand (op : BitVec 4) (e : ErrCode) : Status where
  err    := e.code
  lastOp := op

/-- A STATUS register as the bus reads it: LAST_OP in bits 7:4, ERR in bits 3:0, the rest 0
(20_memory.md R55, 10_state.md R22). -/
def Status.word (st : Status) : Word := (st.lastOp ++ st.err).setWidth 32

end Sys2Proof.Machine
end

