-- ==== Sys2Proof/Machine/Operands.lean ====
section
/-! DEFINITION. The operand forms of the commands: pulse pairs in words, symbols in byte lanes, bits in patterns, and
the capture's pairs. -/

namespace Sys2Proof

/-- `pair(w)`: w[15:0] is the active duration and w[31:16] the idle duration (30_encoding.md R74). -/
def PulsePair.ofWord (w : Word) : PulsePair where
  active := w.extractLsb' 0 16
  idle   := w.extractLsb' 16 16

/-- `word(a, d) = (d << 16) | a` (30_encoding.md R74). -/
def PulsePair.toWord (p : PulsePair) : Word := p.idle.setWidth 32 <<< 16 ||| p.active.setWidth 32

end Sys2Proof

namespace Sys2Proof.Machine

/-- The four byte lanes of a word, lane 0 (bits 7:0) first (20_memory.md R52). -/
def lanes (w : Word) : List Byte :=
  [w.extractLsb' 0 8, w.extractLsb' 8 8, w.extractLsb' 16 8, w.extractLsb' 24 8]

/-- A word from its four byte lanes, lane 0 first (20_memory.md R52). -/
def ofLanes (b0 b1 b2 b3 : Byte) : Word :=
  b0.setWidth 32 ||| b1.setWidth 32 <<< 8 ||| b2.setWidth 32 <<< 16 ||| b3.setWidth 32 <<< 24

/-- The 12 symbols of a code, symbol j from lane j mod 4 of register j div 4 (10_state.md R25). -/
def SymRegs.symbols (r : SymRegs) : List Byte := lanes r.sym0 ++ lanes r.sym1 ++ lanes r.sym2

/-- The symbol registers that hold a list of symbols, packed as R25 says (10_state.md R25, R32). -/
def SymRegs.ofSymbols (l : List Byte) : SymRegs where
  sym0 := ofLanes (l.getD 0 0) (l.getD 1 0) (l.getD 2 0) (l.getD 3 0)
  sym1 := ofLanes (l.getD 4 0) (l.getD 5 0) (l.getD 6 0) (l.getD 7 0)
  sym2 := ofLanes (l.getD 8 0) (l.getD 9 0) (l.getD 10 0) (l.getD 11 0)

/-- The number whose bit i is entry i of a list of bits: `sum over i of c[i] * 2^i` (42_waveform_decoder.md R134). -/
def natOfBits : List Bool → Nat
  | [] => 0
  | b :: rest => b.toNat + 2 * natOfBits rest

/-- `zext_32` of a pattern given bit 0 first (00_scope.md R5). -/
def wordOfBits (bits : List Bool) : Word := BitVec.ofNat 32 (natOfBits bits)

/-- All the values of a list, when none is missing. -/
def allSome {α : Type} : List (Option α) → Option (List α)
  | [] => some []
  | none :: _ => none
  | some a :: rest => (allSome rest).map (a :: ·)

/-- Pairs 0 to 23 of a capture, the data pairs (42_waveform_decoder.md R140). -/
def dataPairs (cap : Vector Word 25) : List PulsePair :=
  (cap.toList.take Config.nBits).map PulsePair.ofWord

/-- Pair 24 of a capture, the trailer (42_waveform_decoder.md R140). -/
def trailer (cap : Vector Word 25) : PulsePair := PulsePair.ofWord cap[24]

/-- The profile that PSEL selects; 2 and 3 name no protocol (41_waveform_encoder.md R110). -/
def profileOf (c : Config) (psel : BitVec 2) : Option Profile :=
  if psel = 0 then some c.profile0
  else if psel = 1 then some c.profile1
  else none

/-- New contents written over the first entries of a buffer; the other entries keep what they held
(10_state.md R27). -/
def overlay : List Word → List Word → List Word
  | new :: news, _ :: olds => new :: overlay news olds
  | [], olds => olds
  | _ :: _, [] => []

end Sys2Proof.Machine
end

