-- ==== Sys2Proof/Machine/Ops.lean ====
section
/-! DEFINITION. The shared operations: the address map, reading a register, storing to a storage register, ending a
command with success or with an error code, reset of the block, and the agents' records. -/

namespace Sys2Proof.Machine

/-- What a step or a meaning answers. -/
abbrev Result := Host.Outcome State Fault Refusal

/-! ### Address map -/

/-- What stands at a bus address (20_memory.md R51). -/
inductive Region where
  | txCmd | txStatus | txBits | txLen | txSym0 | txSym1 | txSym2
  | rxCmd | rxStatus | rxBits | rxTpb | rxSym0 | rxSym1 | rxSym2 | rxCapcnt
  | cap   (k : Fin 25)
  | txbuf (k : Nat)
  | reserved
deriving DecidableEq, Repr

/-- The named registers and their byte addresses (20_memory.md R51). -/
def registerMap : List (Nat × Region) :=
  [(0x000, .txCmd), (0x004, .txStatus), (0x008, .txBits), (0x00C, .txLen),
   (0x010, .txSym0), (0x014, .txSym1), (0x018, .txSym2),
   (0x040, .rxCmd), (0x044, .rxStatus), (0x048, .rxBits), (0x04C, .rxTpb),
   (0x050, .rxSym0), (0x054, .rxSym1), (0x058, .rxSym2), (0x05C, .rxCapcnt)]

/-- CAP[0] stands at 0x080, CAP[k] at 0x080 + 4k (20_memory.md R51). -/
abbrev capBase : Nat := 0x080

/-- TXBUF[0] stands at 0x1000, TXBUF[k] at 0x1000 + 4k (20_memory.md R51). -/
abbrev txbufBase : Nat := 0x1000

/-- The region of an aligned byte address, for a transmit buffer of `depth` entries (20_memory.md R51). -/
def regionOf (depth : Nat) (addr : Nat) : Region :=
  match registerMap.lookup addr with
  | some r => r
  | none =>
    if h : capBase ≤ addr ∧ addr < capBase + 100 then .cap ⟨(addr - capBase) / 4, by omega⟩
    else if txbufBase ≤ addr ∧ addr < txbufBase + 4 * depth then .txbuf ((addr - txbufBase) / 4)
    else .reserved

/-- The region of an address in the build of a record (20_memory.md R51). -/
def region (c : Config) (addr : Addr) : Region := regionOf c.txDepth addr.toNat

/-! ### Reading and storing -/

/-- What a bus read returns (20_memory.md R55). -/
def readRegion (s : State) : Region → Word
  | .txCmd => 0
  | .txStatus => s.tx.status.word
  | .txBits => s.tx.bits
  | .txLen => s.tx.len.setWidth 32
  | .txSym0 => s.tx.sym.sym0
  | .txSym1 => s.tx.sym.sym1
  | .txSym2 => s.tx.sym.sym2
  | .rxCmd => 0
  | .rxStatus => s.rx.status.word
  | .rxBits => s.rx.bits
  | .rxTpb => s.rx.tpb
  | .rxSym0 => s.rx.sym.sym0
  | .rxSym1 => s.rx.sym.sym1
  | .rxSym2 => s.rx.sym.sym2
  | .rxCapcnt => s.rx.capcnt.setWidth 32
  | .cap k => s.rx.cap[k]
  | .txbuf k => s.tx.buf.getD k 0
  | .reserved => 0

/-- `MemRead(addr, 4)` for an aligned address (20_memory.md R55). -/
def memRead (c : Config) (addr : Addr) (s : State) : Word := readRegion s (region c addr)

/-- What a bus write does outside the two command registers: storage registers store, read-only registers and
reserved addresses ignore it (20_memory.md R56, R57). -/
def storeRegion (s : State) (v : Word) : Region → State
  | .txBits => { s with tx := { s.tx with bits := v } }
  | .txSym0 => { s with tx := { s.tx with sym := { s.tx.sym with sym0 := v } } }
  | .txSym1 => { s with tx := { s.tx with sym := { s.tx.sym with sym1 := v } } }
  | .txSym2 => { s with tx := { s.tx with sym := { s.tx.sym with sym2 := v } } }
  | .rxBits => { s with rx := { s.rx with bits := v } }
  | .rxCapcnt => { s with rx := { s.rx with capcnt := v.setWidth 16 } }
  | .cap k => { s with rx := { s.rx with cap := s.rx.cap.set k v } }
  | .txCmd | .txStatus | .txLen | .rxCmd | .rxStatus | .rxTpb | .rxSym0 | .rxSym1 | .rxSym2
  | .txbuf _ | .reserved => s

/-- Why an access is refused, if it is: only aligned words are accesses of this bus (20_memory.md R53, R54). -/
def accessRefusal (addr : Addr) (size : Nat) : Option Refusal :=
  if size ≠ 4 then some .notWordAccess
  else if addr.toNat % 4 ≠ 0 then some .misalignedAccess
  else none

/-! ### Ending a command

The block takes no exception: an error is a status code, and the command completes (60_exceptions.md R160). These
four are the one place where a STATUS register is written (R164). -/

/-- A TX command ends with a code: the one write of TX_STATUS (60_exceptions.md R164). -/
def endTx (op : BitVec 4) (e : ErrCode) (s : State) : State :=
  { s with tx := { s.tx with status := Status.ofCommand op e } }

/-- An RX command ends with a code: the one write of RX_STATUS (60_exceptions.md R164). -/
def endRx (op : BitVec 4) (e : ErrCode) (s : State) : State :=
  { s with rx := { s.rx with status := Status.ofCommand op e } }

/-- `raise CmdError(e)` in a TX command (00_scope.md R8, 60_exceptions.md R167): no write but the STATUS write and
those already in `s`. -/
def raiseTx (op : BitVec 4) (e : ErrCode) (s : State) : Result := .next (endTx op e s)

/-- `raise CmdError(e)` in an RX command (00_scope.md R8, 60_exceptions.md R167). -/
def raiseRx (op : BitVec 4) (e : ErrCode) (s : State) : Result := .next (endRx op e s)

/-! ### Reset -/

/-- Reset of the block: every register and buffer entry takes its reset value, the record of the build stays as it is
(70_reset_and_hazards.md R190); the agents are outside the block. -/
def resetBlock (c : Config) (s : State) : State :=
  { s with tx := TxChannel.resetWith c, rx := RxChannel.reset }

/-! ### The agents' records -/

/-- The record of one agent. -/
def Agents.get (g : Agents) : AgentId → AgentState
  | .hostTx => g.hostTx
  | .hostRx => g.hostRx
  | .pulseGen => g.pulseGen
  | .capture => g.capture

/-- The agents with one record replaced. -/
def Agents.set (g : Agents) (a : AgentId) (st : AgentState) : Agents :=
  match a with
  | .hostTx => { g with hostTx := st }
  | .hostRx => { g with hostRx := st }
  | .pulseGen => { g with pulseGen := st }
  | .capture => { g with capture := st }

/-- The state with what an agent has still to do replaced. -/
def State.withTodo (s : State) (a : AgentId) (todo : List HostOp) : State :=
  { s with agents := s.agents.set a { s.agents.get a with todo := todo } }

/-- A variable list with one name assigned; names stay strictly rising. -/
def assignVar (x : Nat) (v : Word) : List (Nat × Word) → List (Nat × Word)
  | [] => [(x, v)]
  | (y, w) :: rest =>
    if x < y then (x, v) :: (y, w) :: rest
    else if x = y then (x, v) :: rest
    else (y, w) :: assignVar x v rest

/-- The state with one host variable of an agent assigned. -/
def State.withVar (s : State) (a : AgentId) (x : Nat) (v : Word) : State :=
  { s with agents := s.agents.set a { s.agents.get a with vars := assignVar x v (s.agents.get a).vars } }

/-- What a host variable of an agent holds; one nobody assigned holds a free value (notes/assumptions/8.md). -/
def hostVar (a : AgentId) (vars : List (Nat × Word)) (x : Nat) : Word :=
  (vars.lookup x).getD (Config.freeHostVar a x)

end Sys2Proof.Machine
end

