-- ==== Sys2Proof/Machine/Reserved.lean ====
section
/-! DEFINITION. Reserved opcodes: ERR_INV_ARGUMENT and nothing else (30_encoding.md R79). -/

namespace Sys2Proof.Machine

/-- A reserved opcode on TX_CMD (30_encoding.md R79). -/
def execReservedTx (op : BitVec 4) (s : State) : Result := raiseTx op .invArgument s

/-- A reserved opcode on RX_CMD (30_encoding.md R79). -/
def execReservedRx (op : BitVec 4) (s : State) : Result := raiseRx op .invArgument s

end Sys2Proof.Machine
end

