-- ==== Sys2Proof/Machine/SymbolCodec.lean ====
section
/-! DEFINITION. The tri-state symbol codec: `tri.enc` and `tri.dec` (40_symbol_codec.md). -/

namespace Sys2Proof.Machine

/-- SymToPair: a character code to the pair (hi, lo), none for the other 252 codes (40_symbol_codec.md R92). -/
def symToPair (c : Byte) : Option (Bool × Bool) :=
  if c = 0x30 then some (false, false)
  else if c = 0x31 then some (true, true)
  else if c = 0x46 then some (true, false)
  else if c = 0x66 then some (true, false)
  else none

/-- PairToSym: a pair (hi, lo) to the code written, none for 01 (40_symbol_codec.md R91). -/
def pairToSym : Bool × Bool → Option Byte
  | (false, false) => some 0x30
  | (true, true) => some 0x31
  | (true, false) => some 0x46
  | (false, true) => none

/-- The bits of a list of pairs, bit 2j = lo and bit 2j + 1 = hi of pair j (40_symbol_codec.md R90). -/
def bitsOfPairs : List (Bool × Bool) → List Bool
  | [] => []
  | (hi, lo) :: rest => lo :: hi :: bitsOfPairs rest

/-- Pair j of a pattern: (b[2j+1], b[2j]) (40_symbol_codec.md R90). -/
def pairOf (b : Word) (j : Nat) : Bool × Bool := (b.getLsbD (2 * j + 1), b.getLsbD (2 * j))

/-- `tri.enc` as a function of the symbol registers (40_symbol_codec.md R94). -/
def triEncode (r : SymRegs) : Except ErrCode Word :=
  match allSome (r.symbols.map symToPair) with
  | none => .error .invCodeSym
  | some pairs => .ok (wordOfBits (bitsOfPairs pairs))

/-- `tri.dec` as a function of the pattern (40_symbol_codec.md R95). -/
def triDecode (b : Word) : Except ErrCode SymRegs :=
  match allSome ((List.range Config.nSym).map fun j => pairToSym (pairOf b j)) with
  | none => .error .invCodeSym
  | some syms => .ok (SymRegs.ofSymbols syms)

/-- `tri.enc`: TX_SYM0..2 to TX_BITS (40_symbol_codec.md R94). -/
def execTriEnc (s : State) : Result :=
  match triEncode s.tx.sym with
  | .error e => raiseTx 0x1 e s
  | .ok b => .next (endTx 0x1 .ok { s with tx := { s.tx with bits := b } })

/-- `tri.dec`: RX_BITS[23:0] to RX_SYM0..2 (40_symbol_codec.md R95). -/
def execTriDec (s : State) : Result :=
  match triDecode s.rx.bits with
  | .error e => raiseRx 0x4 e s
  | .ok r => .next (endRx 0x4 .ok { s with rx := { s.rx with sym := r } })

/-! ### The decoder as a two-state automaton (40_symbol_codec.md R93) -/

/-- The automaton's states: A, and B remembering the bit read in A. -/
inductive TriState where
  | a
  | b (x : Bool)
deriving DecidableEq, Repr

/-- One row of the automaton's table: the next state and the symbol emitted, or a failure
(40_symbol_codec.md R93). -/
def triAutomatonStep : TriState → Bool → Except ErrCode (TriState × Option Byte)
  | .a, x => .ok (.b x, none)
  | .b true, true => .ok (.a, some 0x31)
  | .b true, false => .ok (.a, some 0x46)
  | .b false, false => .ok (.a, some 0x30)
  | .b false, true => .error .invCodeSym

/-- The automaton run over bits in the order it reads them: the symbols emitted, or the failure. -/
def triAutomatonRun : TriState → List Bool → Except ErrCode (List Byte)
  | _, [] => .ok []
  | st, x :: rest =>
    match triAutomatonStep st x with
    | .error e => .error e
    | .ok (st', none) => triAutomatonRun st' rest
    | .ok (st', some c) => (triAutomatonRun st' rest).map (c :: ·)

/-- The order in which the automaton reads a pattern: of pair 0, 1, ..., 11 the high-order bit, then the low-order
bit (40_symbol_codec.md R93). -/
def triReadOrder (b : Word) : List Bool :=
  (List.range Config.nSym).flatMap fun j => [(pairOf b j).1, (pairOf b j).2]

end Sys2Proof.Machine
end

