-- ==== Sys2Proof/Machine/WaveDecoder.lean ====
section
/-! DEFINITION. The waveform decoder: `wave.dec` (42_waveform_decoder.md). -/

namespace Sys2Proof.Machine

/-- InWin(x, (c, s)): c − s < x ≤ c + s, the low bound written without a subtraction
(42_waveform_decoder.md R130, notes/assumptions/13.md). -/
def inWin (x : Dur) (w : Window) : Bool :=
  w.center < x.toNat + w.spread && x.toNat ≤ w.center + w.spread

/-- The HIGH shape: active in WIN_SHORT and idle in WIN_LONG (42_waveform_decoder.md R131). -/
def highShape (c : Config) (p : PulsePair) : Bool := inWin p.active c.winShort && inWin p.idle c.winLong

/-- The LOW shape: active in WIN_LONG and idle in WIN_SHORT (42_waveform_decoder.md R131). -/
def lowShape (c : Config) (p : PulsePair) : Bool := inWin p.active c.winLong && inWin p.idle c.winShort

/-- Classify(a, d): a bit, or none for `invalid` (42_waveform_decoder.md R132). -/
def classify (c : Config) (p : PulsePair) : Option Bool :=
  match highShape c p, lowShape c p with
  | true, false => some true
  | false, true => some false
  | false, false => none
  | true, true =>
    match c.ambigPolicy with
    | .reject => none
    | .highFirst => some true

/-- FrameOK (42_waveform_decoder.md R133). -/
def frameOk (c : Config) (rx : RxChannel) : Bool :=
  rx.capcnt = 25 && c.trailMin ≤ (trailer rx.cap).active.toNat && (trailer rx.cap).active.toNat < c.trailMax
    && (trailer rx.cap).idle = 0

/-- The calibration sum of the 24 data pairs (42_waveform_decoder.md R135). -/
def calibrationSum (cap : Vector Word 25) : Nat :=
  ((dataPairs cap).map fun p => p.active.toNat + p.idle.toNat).sum

/-- observedTicksPerBit = sum div 96 (42_waveform_decoder.md R136). -/
def ticksPerBit (cap : Vector Word 25) : Nat :=
  calibrationSum cap / (Config.unitsPerBit * Config.nBits)

/-- `wave.dec` as a function of the RX channel: the pattern and the ticks per bit, or the first check that fails
(42_waveform_decoder.md R137, R138). -/
def waveDecode (c : Config) (rx : RxChannel) : Except ErrCode (Word × Word) :=
  if !frameOk c rx then .error .invFrame
  else
    match allSome ((dataPairs rx.cap).map (classify c)) with
    | none => .error .invCodeSym
    | some bits => .ok (wordOfBits bits, BitVec.ofNat 32 (ticksPerBit rx.cap))

/-- `wave.dec` under a configuration record (42_waveform_decoder.md R137). -/
def execWaveDecWith (c : Config) (s : State) : Result :=
  match waveDecode c s.rx with
  | .error e => raiseRx 0x3 e s
  | .ok (bits, tpb) => .next (endRx 0x3 .ok { s with rx := { s.rx with bits := bits, tpb := tpb } })

/-- `wave.dec`: RX_CAPCNT and CAP to RX_BITS and RX_TPB (42_waveform_decoder.md R137). -/
def execWaveDec (s : State) : Result := execWaveDecWith Config.built s

end Sys2Proof.Machine
end

