-- ==== Sys2Proof/Machine/WaveEncoder.lean ====
section
/-! DEFINITION. The waveform encoder: `wave.enc` (41_waveform_encoder.md). -/

namespace Sys2Proof.Machine

/-- Frame(b, P): SYNC, then HIGH or LOW for bits 0 to 23 (41_waveform_encoder.md R111). -/
def frame (b : Word) (p : Profile) : List PulsePair :=
  p.sync :: (List.range Config.nBits).map fun i => if b.getLsbD i then p.high else p.low

/-- Train(b, n, P): the frame n times (41_waveform_encoder.md R112). -/
def train (b : Word) (n : Nat) (p : Profile) : List PulsePair :=
  (List.replicate n (frame b p)).flatten

/-- `wave.enc` as a function of PSEL, REPEAT and the pattern: the pulse train, or the first check that fails
(41_waveform_encoder.md R113, 60_exceptions.md R166). -/
def waveEncode (c : Config) (psel : BitVec 2) (rep : BitVec 8) (b : Word) : Except ErrCode (List PulsePair) :=
  match profileOf c psel with
  | none => .error .invProtocol
  | some p =>
    if Config.framePairs * rep.toNat > c.txDepth then .error .noMem
    else .ok (train b rep.toNat p)

/-- `wave.enc` under a configuration record (41_waveform_encoder.md R113): on an error TX_LEN becomes 0. -/
def execWaveEncWith (c : Config) (psel : BitVec 2) (rep : BitVec 8) (s : State) : Result :=
  match waveEncode c psel rep s.tx.bits with
  | .error e => raiseTx 0x2 e { s with tx := { s.tx with len := 0 } }
  | .ok t =>
    .next (endTx 0x2 .ok { s with tx :=
      { s.tx with
        buf := overlay (t.map PulsePair.toWord) s.tx.buf
        len := BitVec.ofNat 16 (Config.framePairs * rep.toNat) } })

/-- `wave.enc`: TX_BITS[23:0] to TXBUF and TX_LEN (41_waveform_encoder.md R113). -/
def execWaveEnc (psel : BitVec 2) (rep : BitVec 8) (s : State) : Result :=
  execWaveEncWith Config.built psel rep s

end Sys2Proof.Machine
end

