-- ==== Sys2Proof/Machine/Dispatch.lean ====
section
/-! DEFINITION. One arm per instruction, each one call of its meaning. -/

namespace Sys2Proof.Machine

def exec (i : Instr) (s : State) : Host.Outcome State Fault Refusal :=
  match i with
  | .triEnc => Sys2Proof.Machine.execTriEnc s
  | .waveEnc psel rep => Sys2Proof.Machine.execWaveEnc psel rep s
  | .waveDec => Sys2Proof.Machine.execWaveDec s
  | .triDec => Sys2Proof.Machine.execTriDec s
  | .reservedTx op => Sys2Proof.Machine.execReservedTx op s
  | .reservedRx op => Sys2Proof.Machine.execReservedRx op s

end Sys2Proof.Machine
end

