-- ==== Sys2Proof/Machine/Build.lean ====
section
/-! DEFINITION. The commands of a block built with any configuration record (10_state.md R37, 70_reset_and_hazards.md
R193). `exec` is `execWith` at the record of the machine (Laws/Exec.lean). -/

namespace Sys2Proof.Machine

/-- What a command does in the build of a record; the two waveform commands are those that read it (10_state.md R37). -/
def execWith (c : Config) (i : Instr) (s : State) : Result :=
  match i with
  | .triEnc => execTriEnc s
  | .waveEnc psel rep => execWaveEncWith c psel rep s
  | .waveDec => execWaveDecWith c s
  | .triDec => execTriDec s
  | .reservedTx op => execReservedTx op s
  | .reservedRx op => execReservedRx op s

end Sys2Proof.Machine
end

