-- ==== Sys2Proof/Machine/Bus.lean ====
section
/-! DEFINITION. The two bus operations, MemRead and MemWrite, as an agent issues them (20_memory.md): `…With c` for the
build of any record, and without the suffix for the machine. -/

namespace Sys2Proof.Machine

/-- A bus read of `size` bytes: the word read, or why the access is refused (20_memory.md R54, R55). A read has no
side effect, so no state is answered. -/
def busReadWith (c : Config) (addr : Addr) (size : Nat) (s : State) : Except Refusal Word :=
  match accessRefusal addr size with
  | some r => .error r
  | none => .ok (memRead c addr s)

/-- `MemWrite(addr, 4, v)` for an aligned address: a command register runs the command that v encodes, within the
write (20_memory.md R56, 10_state.md R21, R28). -/
def memWrite (c : Config) (addr : Addr) (v : Word) (s : State) : Result :=
  match region c addr with
  | .txCmd => execWith c (decode .tx v) s
  | .rxCmd => execWith c (decode .rx v) s
  | r => .next (storeRegion s v r)

/-- A bus write of `size` bytes (20_memory.md R54, R56). -/
def busWriteWith (c : Config) (addr : Addr) (size : Nat) (v : Word) (s : State) : Result :=
  match accessRefusal addr size with
  | some r => .refused r
  | none => memWrite c addr v s

/-- A bus read of the machine. -/
def busRead (addr : Addr) (size : Nat) (s : State) : Except Refusal Word := busReadWith Config.built addr size s

/-- A bus write of the machine. -/
def busWrite (addr : Addr) (size : Nat) (v : Word) (s : State) : Result := busWriteWith Config.built addr size v s

end Sys2Proof.Machine
end

