-- ==== Sys2Proof/Machine/Agents.lean ====
section
/-! DEFINITION. The bus agents: host expressions and operations, one turn of an agent (30_encoding.md R82, R83;
60_exceptions.md R180), for the build of any configuration record. -/

namespace Sys2Proof.Machine

/-- The value of a host expression, 32-bit unsigned (30_encoding.md R83). A shift by 32 or more gives 0
(notes/assumptions/8.md). -/
def HostExpr.eval (val : Nat → Word) : HostExpr → Word
  | .lit w => w
  | .var x => val x
  | .add a b => a.eval val + b.eval val
  | .band a b => a.eval val &&& b.eval val
  | .bor a b => a.eval val ||| b.eval val
  | .shl a b => if (b.eval val).toNat < 32 then a.eval val <<< (b.eval val).toNat else 0
  | .shr a b => if (b.eval val).toNat < 32 then a.eval val >>> (b.eval val).toNat else 0
  | .err a => ((a.eval val).extractLsb' 0 4).setWidth 32
  | .lastOp a => ((a.eval val).extractLsb' 4 4).setWidth 32

/-- A host comparison (30_encoding.md R83). -/
def HostCmp.holds (cmp : HostCmp) (a b : Word) : Bool :=
  match cmp with
  | .eq => a == b
  | .ne => a != b
  | .lt => a.toNat < b.toNat

/-- The byte address of `<reg>`: the map of 20_memory.md R51 for a name, 0x080 + 4k for CAP[k], 0x1000 + 4k for
TXBUF[k], the address itself for `@a` (30_encoding.md R82, R83). -/
def RegRef.address (val : Nat → Word) : RegRef → Nat
  | .txCmd => 0x000
  | .txStatus => 0x004
  | .txBits => 0x008
  | .txLen => 0x00C
  | .txSym0 => 0x010
  | .txSym1 => 0x014
  | .txSym2 => 0x018
  | .rxCmd => 0x040
  | .rxStatus => 0x044
  | .rxBits => 0x048
  | .rxTpb => 0x04C
  | .rxSym0 => 0x050
  | .rxSym1 => 0x054
  | .rxSym2 => 0x058
  | .rxCapcnt => 0x05C
  | .cap k => capBase + 4 * (k.eval val).toNat
  | .txbuf k => txbufBase + 4 * (k.eval val).toNat
  | .byteAddress a => (a.eval val).toNat

/-- What of a host program follows a label (30_encoding.md R83). -/
def afterLabel (l : Nat) : List HostOp → Option (List HostOp)
  | [] => none
  | .label m :: rest => if m = l then some rest else afterLabel l rest
  | _ :: rest => afterLabel l rest

/-- An agent goes on after a label of its program, or is refused where the program has none. -/
def jumpTo (a : AgentId) (l : Nat) (s : State) : Result :=
  match afterLabel l (s.agents.get a).prog with
  | none => .refused .noSuchLabel
  | some rest => .next (s.withTodo a rest)

/-- The values of an agent's host variables. -/
def State.varsOf (s : State) (a : AgentId) : Nat → Word := hostVar a (s.agents.get a).vars

/-- A bus read by an agent into one of its variables (30_encoding.md R82). -/
def agentReadWith (c : Config) (a : AgentId) (addr : Nat) (size name : Nat) (s : State) : Result :=
  if addr < 2 ^ 16 then
    match busReadWith c (BitVec.ofNat 16 addr) size s with
    | .error r => .refused r
    | .ok v => .next (s.withVar a name v)
  else .fault .outsideAddressSpace

/-- A bus write by an agent (30_encoding.md R82). -/
def agentWrite (c : Config) (addr : Nat) (size : Nat) (v : Word) (s : State) : Result :=
  if addr < 2 ^ 16 then busWriteWith c (BitVec.ofNat 16 addr) size v s
  else .fault .outsideAddressSpace

/-- One host operation of an agent, already taken from what it has to do. Host steps make no bus access
(30_encoding.md R83). -/
def hostOpWith (c : Config) (a : AgentId) (op : HostOp) (s : State) : Result :=
  match op with
  | .wr reg size value => agentWrite c (reg.address (s.varsOf a)) size (value.eval (s.varsOf a)) s
  | .rd reg size name => agentReadWith c a (reg.address (s.varsOf a)) size name s
  | .assign name value => .next (s.withVar a name (value.eval (s.varsOf a)))
  | .ifGoto x cmp y l =>
    if cmp.holds (x.eval (s.varsOf a)) (y.eval (s.varsOf a)) then jumpTo a l s else .next s
  | .goto l => jumpTo a l s
  | .label _ => .next s

/-- A bus read by an agent of the machine. -/
def agentRead (a : AgentId) (addr size name : Nat) (s : State) : Result := agentReadWith Config.built a addr size name s

/-- One host operation of an agent of the machine. -/
def hostOp (a : AgentId) (op : HostOp) (s : State) : Result := hostOpWith Config.built a op s

/-- An agent's turn: its next host operation, or nothing when it has none. -/
def agentTurn (c : Config) (a : AgentId) (s : State) : Result :=
  match (s.agents.get a).todo with
  | [] => .next s
  | op :: rest => hostOpWith c a op (s.withTodo a rest)

/-- One turn on the bus (20_memory.md R59, 70_reset_and_hazards.md R190). -/
def takeTurn (c : Config) (t : Turn) (s : State) : Result :=
  match t with
  | .agent a => agentTurn c a s
  | .reset => .next (resetBlock c s)

/-- A host program whose jumps all have their label. -/
def labelsResolve (prog : List HostOp) : Bool :=
  prog.all fun op =>
    match op with
    | .ifGoto _ _ _ l => (afterLabel l prog).isSome
    | .goto l => (afterLabel l prog).isSome
    | _ => true

/-- The state with a program placed in an agent, from its first operation (notes/assumptions/2.md). -/
def State.load (s : State) (a : AgentId) (prog : List HostOp) : State :=
  { s with agents := s.agents.set a { s.agents.get a with prog := prog, todo := prog } }

end Sys2Proof.Machine
end

