-- ==== Sys2Proof/Machine/Step.lean ====
section
/-! DEFINITION. One step of the machine: the next turn on the bus (20_memory.md R58, R59). -/

namespace Sys2Proof.Machine

/-- One step in the build of a record: the agent whose turn it is does its next operation, or the block is reset. With
no turn left nothing happens: nothing in the block changes between bus accesses (60_exceptions.md R182,
notes/assumptions/1.md). The record is an argument and no step changes it (10_state.md R37, 70_reset_and_hazards.md
R193).
DESIGN CHOICE (notes/assumptions/17.md): a record that breaks a constraint of R3 is not refused. -/
def stepWith (c : Config) (s : State) : Host.Outcome State Fault Refusal :=
  match s.schedule with
  | [] => .next s
  | t :: rest => takeTurn c t { s with schedule := rest }

/-- One step of the machine: the build of the default record (notes/assumptions/4.md). -/
def step (s : State) : Host.Outcome State Fault Refusal := stepWith Config.built s

/-- The agent that issues a command on a register (60_exceptions.md R180). -/
def issuer : CmdReg → AgentId
  | .tx => .hostTx
  | .rx => .hostRx

/-- The command register by name. -/
def cmdRef : CmdReg → RegRef
  | .tx => .txCmd
  | .rx => .rxCmd

/-- s with a command word about to be written: the issuing agent's next operation is the write of the word to its
command register, and it has the next turn (notes/assumptions/2.md, notes/assumptions/3.md). -/
def State.withFetchWord (s : State) (nbits w : Nat) : State :=
  let v : Word := BitVec.ofNat 32 (w % 2 ^ nbits)
  let a := issuer (tableReg v)
  { s.withTodo a (.wr (cmdRef (tableReg v)) 4 (.lit v) :: (s.agents.get a).todo) with
    schedule := .agent a :: s.schedule }

end Sys2Proof.Machine
end

