-- ==== Sys2Proof/Machine/Pseudo.lean ====
section
/-! DEFINITION. The pseudo-instructions of 30_encoding.md R83 and their expansions into bus writes. -/

namespace Sys2Proof.Machine

/-- The pseudo-instructions (30_encoding.md R83). -/
inductive Pseudo where
  | triEnc
  | waveEnc (n : BitVec 8) (s : BitVec 2)
  | waveDec
  | triDec
  | symTx   (code : Vector Byte 12)
  | cap     (k : HostExpr) (a d : Dur)
  | capcnt  (n : Word)
deriving DecidableEq, Repr

/-- `wr <reg>, <value>`: one aligned word write (30_encoding.md R82). -/
def wrWord (reg : RegRef) (value : Word) : HostOp := .wr reg 4 (.lit value)

/-- `rd <reg> -> <name>`: one aligned word read (30_encoding.md R82). -/
def rdWord (reg : RegRef) (name : Nat) : HostOp := .rd reg 4 name

/-- The exact expansions (30_encoding.md R83). -/
def Pseudo.expand : Pseudo → List HostOp
  | .triEnc => [wrWord .txCmd 0x00000001]
  | .waveEnc n s =>
    [wrWord .txCmd (n.setWidth 32 <<< 8 ||| s.setWidth 32 <<< 4 ||| 0x02)]
  | .waveDec => [wrWord .rxCmd 0x00000003]
  | .triDec => [wrWord .rxCmd 0x00000004]
  | .symTx code =>
    [wrWord .txSym0 (ofLanes code[0] code[1] code[2] code[3]),
     wrWord .txSym1 (ofLanes code[4] code[5] code[6] code[7]),
     wrWord .txSym2 (ofLanes code[8] code[9] code[10] code[11])]
  | .cap k a d => [wrWord (.cap k) (d.setWidth 32 <<< 16 ||| a.setWidth 32)]
  | .capcnt n => [wrWord .rxCapcnt n]

end Sys2Proof.Machine
end

