-- ==== Sys2Proof/Machine/Channel.lean ====
section
/-! DEFINITION. The collaborators outside the block, as far as the spec gives them: their bus accesses
(60_exceptions.md R181) and the ideal channel Chan (42_waveform_decoder.md R141). No step of the machine reads Chan. -/

namespace Sys2Proof.Machine

/-- Capture k of the ideal channel: the 24 data pairs of frame k, then the active part of the next frame's SYNC with
idle 0 (42_waveform_decoder.md R141). -/
def idealCapture (t : List PulsePair) (k : Nat) : List PulsePair :=
  (t.drop (Config.framePairs * k + 1)).take Config.nBits ++
    [⟨(t.getD (Config.framePairs * (k + 1)) ⟨0, 0⟩).active, 0⟩]

/-- Chan: a train of n frames gives captures 0 to n − 2 (42_waveform_decoder.md R141). -/
def idealChannel (t : List PulsePair) (n : Nat) : List (List PulsePair) :=
  (List.range (n - 1)).map (idealCapture t)

/-- The accesses of Capture for one captured train: CAP[0 .. min(count, 25) − 1], then RX_CAPCNT
(60_exceptions.md R181; the order is notes/assumptions/12.md). -/
def captureProgram (pairs : List PulsePair) : List HostOp :=
  ((pairs.take 25).zipIdx.map fun (p, k) => wrWord (.cap (.lit (BitVec.ofNat 32 k))) p.toWord) ++
    [wrWord .rxCapcnt (BitVec.ofNat 32 pairs.length)]

/-- The accesses of PulseGen for one train: TX_LEN, then TXBUF[0 .. LEN − 1] in order (60_exceptions.md R181,
41_waveform_encoder.md R116). Variable 0 holds LEN, 1 the index, 2 the pair last read. -/
def pulseGenProgram : List HostOp :=
  [rdWord .txLen 0,
   .assign 1 (.lit 0),
   .label 0,
   .ifGoto (.var 1) .eq (.var 0) 1,
   rdWord (.txbuf (.var 1)) 2,
   .assign 1 (.add (.var 1) (.lit 1)),
   .goto 0,
   .label 1]

/-- What a capture of pairs leaves in CAP and RX_CAPCNT: the first 25 pairs and the count (10_state.md R33, R34). -/
def RxChannel.withCapture (rx : RxChannel) (pairs : List PulsePair) : RxChannel :=
  { rx with
    capcnt := BitVec.ofNat 16 pairs.length
    cap := Vector.ofFn fun k => ((pairs[k.val]?).map PulsePair.toWord).getD rx.cap[k] }

end Sys2Proof.Machine
end

