-- ==== Sys2Proof/Safety.lean ====
section
/-! DEFINITION. What claims call safe: the invariant of the machine's states, and the runs whose agents keep the
duties of 70_reset_and_hazards.md section 3, which the block itself does not check. -/

namespace Sys2Proof.Machine

/-! ### The invariant -/

/-- The one stored array whose length the type does not fix: TXBUF has TX_DEPTH entries (10_state.md R27). CAP has
25 by its type, and the block has no byte memory (20_memory.md R50, notes/assumptions/9.md). -/
abbrev Memory.wfWith (c : Config) (s : State) : Prop := s.tx.buf.length = c.txDepth

/-- `Memory.wfWith` for the machine. -/
abbrev Memory.wf (s : State) : Prop := Memory.wfWith Config.built s

/-- What TX_STATUS can hold: 0 before any command, else a code its last command can report (60_exceptions.md R162,
R164). -/
def txStatusLegal (st : Status) : Bool :=
  st == ⟨0, 0⟩ ||
  (if st.lastOp = 0x1 then st.err == 0 || st.err == 5
   else if st.lastOp = 0x2 then st.err == 0 || st.err == 2 || st.err == 3
   else st.err == 1)

/-- What RX_STATUS can hold (60_exceptions.md R162, R164). -/
def rxStatusLegal (st : Status) : Bool :=
  st == ⟨0, 0⟩ ||
  (if st.lastOp = 0x3 then st.err == 0 || st.err == 6 || st.err == 5
   else if st.lastOp = 0x4 then st.err == 0 || st.err == 5
   else st.err == 1)

/-- Entries 0 to LEN − 1 of TXBUF are the train of some pattern under one of the record's two profiles, LEN = 25 · n
(10_state.md R26, R27). -/
def HoldsTrain (c : Config) (tx : TxChannel) : Prop :=
  ∃ (b : Word) (n : Nat) (p : Profile), n ≤ 255 ∧ (p = c.profile0 ∨ p = c.profile1) ∧
    tx.len.toNat = Config.framePairs * n ∧ Config.framePairs * n ≤ tx.buf.length ∧
    tx.buf.take (Config.framePairs * n) = (train b n p).map PulsePair.toWord

/-- RX_SYM holds its reset value or twelve symbols `tri.dec` writes (10_state.md R32). -/
def rxSymLegal (r : SymRegs) : Bool :=
  r == ⟨0, 0, 0⟩ || r.symbols.all fun c => c == 0x30 || c == 0x31 || c == 0x46

/-- Variable names strictly rising: one entry a variable. -/
abbrev varsRising (vars : List (Nat × Word)) : Prop := (vars.map Prod.fst).Pairwise (· < ·)

/-- The invariant that every step keeps, in the build of a record. -/
structure State.InvWith (c : Config) (s : State) : Prop where
  bufferWhole : Memory.wfWith c s
  txStatus    : txStatusLegal s.tx.status = true
  rxStatus    : rxStatusLegal s.rx.status = true
  holdsTrain  : HoldsTrain c s.tx
  rxTpb       : s.rx.tpb.toNat < 2 ^ 15
  rxSym       : rxSymLegal s.rx.sym = true
  hostVars    : ∀ a, varsRising (s.agents.get a).vars

/-- The invariant of the machine. -/
abbrev State.Inv (s : State) : Prop := s.InvWith Config.built

/-! ### What claims say of commands -/

/-- Symbol j of a code: bits [8·(j mod 4) + 7 : 8·(j mod 4)] of register j div 4 (10_state.md R25). -/
def symbolByte (r : SymRegs) (j : Nat) : Byte :=
  ((if j / 4 = 0 then r.sym0 else if j / 4 = 1 then r.sym1 else r.sym2) >>> (8 * (j % 4))).setWidth 8

/-- OK when a computation gives a value, else the error it raises. -/
def codeOf {α : Type} : Except ErrCode α → ErrCode
  | .ok _ => .ok
  | .error e => e

/-- The code a command of the machine ends with: 0 on success, else the CmdError code raised (60_exceptions.md
R164). -/
def commandCode (i : Instr) (s : State) : ErrCode :=
  match i with
  | .triEnc => codeOf (triEncode s.tx.sym)
  | .waveEnc psel rep => codeOf (waveEncode Config.built psel rep s.tx.bits)
  | .waveDec => codeOf (waveDecode Config.built s.rx)
  | .triDec => codeOf (triDecode s.rx.bits)
  | .reservedTx _ => .invArgument
  | .reservedRx _ => .invArgument

/-! ### Accesses and duties -/

/-- A bus access of one aligned word (20_memory.md R53). -/
inductive Access where
  | read  (addr : Addr)
  | write (addr : Addr) (v : Word)
deriving DecidableEq, Repr

/-- The access an agent's operation makes, if it is one the bus serves. -/
def accessOf (val : Nat → Word) : HostOp → Option Access
  | .wr reg size value =>
    let addr := reg.address val
    if addr < 2 ^ 16 ∧ accessRefusal (BitVec.ofNat 16 addr) size = none
    then some (.write (BitVec.ofNat 16 addr) (value.eval val)) else none
  | .rd reg size _ =>
    let addr := reg.address val
    if addr < 2 ^ 16 ∧ accessRefusal (BitVec.ofNat 16 addr) size = none
    then some (.read (BitVec.ofNat 16 addr)) else none
  | .assign _ _ => none
  | .ifGoto _ _ _ _ => none
  | .goto _ => none
  | .label _ => none

/-- The access the next step serves, and whose it is. -/
def nextAccess (s : State) : Option (AgentId × Access) :=
  match s.schedule with
  | .agent a :: _ =>
    match (s.agents.get a).todo with
    | op :: _ => (accessOf (s.varsOf a) op).map (a, ·)
    | [] => none
  | _ => none

/-- The duties of the agents (70_reset_and_hazards.md section 3). -/
inductive Duty where
  /-- R194: a command's operands have been written since reset. -/
  | operandsWritten
  /-- R196: no `wave.enc` while PulseGen still reads TXBUF. -/
  | trainNotInUse
  /-- R197: one user of the TX channel, one of the RX channel. -/
  | oneUser
  /-- R198: no `wave.dec` within a capture, and no overwrite of a capture before its `wave.dec`. -/
  | captureWhole
  /-- R199: RX_STATUS checked before RX_BITS and RX_TPB are used, and both read before the next `wave.dec`. -/
  | resultsTaken
  /-- R200: TX_STATUS checked after `tri.enc` before `wave.enc`. -/
  | encodeChecked
deriving DecidableEq, Repr

/-- What an observer of the bus remembers in order to judge the duties. -/
structure Monitor where
  symWritten     : List Nat
  txBitsWritten  : Bool
  rxBitsWritten  : Bool
  capWritten     : List Nat
  capcntWritten  : Bool
  /-- The TXBUF entry PulseGen reads last, while it is reading a train. -/
  trainUntil     : Option Nat
  txUser         : Option AgentId
  rxUser         : Option AgentId
  captureOpen    : Bool
  captureReady   : Bool
  rxUnchecked    : Bool
  rxBitsUnread   : Bool
  rxTpbUnread    : Bool
  txUnchecked    : Bool
deriving DecidableEq, Repr

/-- The observer right after reset. -/
def Monitor.start : Monitor where
  symWritten := []
  txBitsWritten := false
  rxBitsWritten := false
  capWritten := []
  capcntWritten := false
  trainUntil := none
  txUser := none
  rxUser := none
  captureOpen := false
  captureReady := false
  rxUnchecked := false
  rxBitsUnread := false
  rxTpbUnread := false
  txUnchecked := false

/-- Set one user of a channel, or fail where another agent is its user (70_reset_and_hazards.md R197). -/
def claimUser (user : Option AgentId) (a : AgentId) : Except Duty (Option AgentId) :=
  match user with
  | none => .ok (some a)
  | some u => if u = a then .ok (some a) else .error .oneUser

/-- The duties at a read (70_reset_and_hazards.md R196, R199, R200).
DESIGN CHOICE (notes/assumptions/12.md): the read of STATUS that checks a command, and the reads of RX_BITS and RX_TPB
that take a result, may be any agent's, where R199 names HostRX and R200 HostTX; PulseGen's use of a train runs from
its read of TX_LEN to its read of the last entry. -/
def Monitor.onRead (m : Monitor) (a : AgentId) (s : State) : Region → Except Duty Monitor
  | .txLen =>
    if a = .pulseGen then
      .ok { m with trainUntil := if s.tx.len = 0 then none else some (s.tx.len.toNat - 1) }
    else .ok m
  | .txbuf k => if a = .pulseGen ∧ m.trainUntil = some k then .ok { m with trainUntil := none } else .ok m
  | .txStatus => if s.tx.status.err = 0 then .ok { m with txUnchecked := false } else .ok m
  | .rxStatus => if s.rx.status.err = 0 then .ok { m with rxUnchecked := false } else .ok m
  | .rxBits => if m.rxUnchecked then .error .resultsTaken else .ok { m with rxBitsUnread := false }
  | .rxTpb => if m.rxUnchecked then .error .resultsTaken else .ok { m with rxTpbUnread := false }
  | _ => .ok m

/-- The duties at a command (70_reset_and_hazards.md R194, R196, R198, R199, R200). Where a command breaks several, the
first tested is named (notes/assumptions/12.md). -/
def Monitor.onCommand (c : Config) (m : Monitor) (s : State) : Instr → Except Duty Monitor
  | .triEnc =>
    if [0, 1, 2].all (m.symWritten.contains ·) then
      .ok { m with txUnchecked := true, txBitsWritten := m.txBitsWritten || (triEncode s.tx.sym).isOk }
    else .error .operandsWritten
  | .waveEnc _ _ =>
    if m.trainUntil.isSome then .error .trainNotInUse
    else if m.txUnchecked then .error .encodeChecked
    else if m.txBitsWritten then .ok m
    else .error .operandsWritten
  | .waveDec =>
    if m.captureOpen then .error .captureWhole
    else if m.rxBitsUnread || m.rxTpbUnread then .error .resultsTaken
    else if m.capcntWritten && (List.range 25).all (m.capWritten.contains ·) then
      let decoded := (waveDecode c s.rx).isOk
      .ok { m with
        captureReady := false
        rxUnchecked := true
        rxBitsUnread := decoded
        rxTpbUnread := decoded
        rxBitsWritten := m.rxBitsWritten || decoded }
    else .error .operandsWritten
  | .triDec =>
    if m.rxUnchecked then .error .resultsTaken
    else if m.rxBitsWritten then .ok m
    else .error .operandsWritten
  | .reservedTx _ => .ok m
  | .reservedRx _ => .ok m

/-- A symbol register written by the channel's user. -/
def Monitor.onSymWrite (m : Monitor) (a : AgentId) (i : Nat) : Except Duty Monitor :=
  (claimUser m.txUser a).map fun u => { m with txUser := u, symWritten := i :: m.symWritten }

/-- The duties at a write (70_reset_and_hazards.md R194, R197, R198, R200).
DESIGN CHOICE (notes/assumptions/12.md): a host write of TX_BITS ends R200's duty, while one of RX_BITS does not lift
R199's check of RX_STATUS, so that a `tri.dec` on the host's own pattern waits for it too; Capture's writes make it no
user of the RX channel. -/
def Monitor.onWrite (c : Config) (m : Monitor) (a : AgentId) (v : Word) (s : State) : Region → Except Duty Monitor
  | .txCmd => (claimUser m.txUser a).bind fun u => Monitor.onCommand c { m with txUser := u } s (decode .tx v)
  | .rxCmd => (claimUser m.rxUser a).bind fun u => Monitor.onCommand c { m with rxUser := u } s (decode .rx v)
  | .txBits => (claimUser m.txUser a).map fun u =>
      { m with txUser := u, txBitsWritten := true, txUnchecked := false }
  | .txSym0 => m.onSymWrite a 0
  | .txSym1 => m.onSymWrite a 1
  | .txSym2 => m.onSymWrite a 2
  | .rxBits => (claimUser m.rxUser a).map fun u => { m with rxUser := u, rxBitsWritten := true }
  | .rxCapcnt => .ok { m with capcntWritten := true, captureOpen := false, captureReady := true }
  | .cap k =>
    if m.captureReady then .error .captureWhole
    else .ok { m with capWritten := k.val :: m.capWritten, captureOpen := true }
  | _ => .ok m

/-- What the observer knows after the next step of s, or the duty that step breaks.
DESIGN CHOICE (notes/assumptions/12.md): at a reset the observer starts afresh, so a reset ends PulseGen's use of a
train, the channels' users and every pending check, although the agents go on as they were (notes/assumptions/7.md). -/
def Monitor.observeWith (c : Config) (m : Monitor) (s : State) : Except Duty Monitor :=
  match s.schedule with
  | .reset :: _ => .ok .start
  | _ =>
    match nextAccess s with
    | none => .ok m
    | some (a, .read addr) => m.onRead a s (region c addr)
    | some (a, .write addr v) => m.onWrite c a v s (region c addr)

/-- The observer beside the machine. -/
def Monitor.observe (m : Monitor) (s : State) : Except Duty Monitor := m.observeWith Config.built s

/-- A run of k steps that meets no fault and no refusal and in which every agent keeps its duties. -/
def keepsDuties (c : Config) : Nat → Monitor → State → Bool
  | 0, _, _ => true
  | k + 1, m, s =>
    match m.observeWith c s, stepWith c s with
    | .ok m', .next s' => keepsDuties c k m' s'
    | _, _ => false

/-- A safe run of k steps from a state right after reset of the block. -/
abbrev SafeRun (c : Config) (k : Nat) (s : State) : Prop := keepsDuties c k .start s = true

/-! ### The agents' registers -/

/-- Which registers each agent uses by convention; the block protects none of them (60_exceptions.md R170, R180). -/
def AgentId.uses : AgentId → Region → Bool
  | .hostTx, .txSym0 | .hostTx, .txSym1 | .hostTx, .txSym2 => true
  | .hostTx, .txBits | .hostTx, .txCmd | .hostTx, .txStatus => true
  | .hostRx, .rxCmd | .hostRx, .rxStatus | .hostRx, .rxBits | .hostRx, .rxTpb => true
  | .hostRx, .rxSym0 | .hostRx, .rxSym1 | .hostRx, .rxSym2 => true
  | .pulseGen, .txLen | .pulseGen, .txbuf _ => true
  | .capture, .cap _ | .capture, .rxCapcnt => true
  | _, _ => false

/-! ### The round trip -/

/-- What the round trip asks of a profile beyond a legal record (00_scope.md R4). -/
def RoundTripProfile (c : Config) (p : Profile) : Prop :=
  highShape c p.high = true ∧ lowShape c p.high = false ∧
  lowShape c p.low = true ∧ highShape c p.low = false ∧
  c.trailMin ≤ p.sync.active.toNat ∧ p.sync.active.toNat < c.trailMax

end Sys2Proof.Machine
end

