-- ==== Sys2Proof/Certificates/Slice0/Obligations.lean ====
section
/-! DEFINITION. The statements for the provers. Each docstring names the rule of spec/ it formalises. -/

open Sys2Proof Sys2Proof.Machine

/-! ### Encoding -/

/-- Decoding the byte lanes of an encoded well-formed instruction, on the register it is for, gives it back, every
operand at every value (30_encoding.md R70, R76, R77). -/
def Obligations.DecodeOfEncodeIsIdentity : Prop :=
  ∀ i : Instr, i.wf = true →
    decode i.cmdReg (encode i) = i ∧ decodeBytes i.cmdReg (lanes (encode i)) = .ok i

/-- Every word written to a command register decodes to a well-formed instruction of that register, and encoding it
gives back exactly the bits the command reads (30_encoding.md R71, R78, R80). -/
def Obligations.EncodeOfDecodeKeepsReadBits : Prop :=
  ∀ (r : CmdReg) (w : Word),
    (decode r w).wf = true ∧ (decode r w).cmdReg = r ∧ encode (decode r w) = w &&& (decode r w).readBits

/-- R71, R76, R77: OP = cmd[3:0] selects the operation by the maps of the two command registers. -/
def Obligations.OpcodeSelectsOperation : Prop :=
  ∀ w : Word,
    (w.toNat % 16 = 1 → decode .tx w = .triEnc) ∧
    (w.toNat % 16 = 2 → ∃ (p : BitVec 2) (n : BitVec 8), decode .tx w = .waveEnc p n) ∧
    (w.toNat % 16 ≠ 1 → w.toNat % 16 ≠ 2 → decode .tx w = .reservedTx (BitVec.ofNat 4 (w.toNat % 16))) ∧
    (w.toNat % 16 = 3 → decode .rx w = .waveDec) ∧
    (w.toNat % 16 = 4 → decode .rx w = .triDec) ∧
    (w.toNat % 16 ≠ 3 → w.toNat % 16 ≠ 4 → decode .rx w = .reservedRx (BitVec.ofNat 4 (w.toNat % 16)))

/-- The fields of `wave.enc`: PSEL is cmd[5:4] and REPEAT is cmd[15:8], both unsigned and used as they are
(30_encoding.md R72, R73). -/
def Obligations.WaveEncFieldsAreTheirBits : Prop :=
  ∀ w : Word, w.toNat % 16 = 2 →
    decode .tx w = .waveEnc (BitVec.ofNat 2 (w.toNat / 16 % 4)) (BitVec.ofNat 8 (w.toNat / 256 % 256))

/-- R78: the reserved bits change nothing, and PSEL and REPEAT change nothing but `wave.enc`. -/
def Obligations.IgnoredBitsChangeNothing : Prop :=
  ∀ (s : State) (w : Word),
    busWrite 0x0000 4 w s = busWrite 0x0000 4 (w &&& 0x0000FF3F) s ∧
    busWrite 0x0040 4 w s = busWrite 0x0040 4 (w &&& 0x0000FF3F) s ∧
    (w.toNat % 16 ≠ 2 → busWrite 0x0000 4 w s = busWrite 0x0000 4 (w &&& 0x0000000F) s) ∧
    busWrite 0x0040 4 w s = busWrite 0x0040 4 (w &&& 0x0000000F) s

/-- A few words written out from the encoding of 30_encoding.md R70, one a family. -/
def Obligations.SampleWordsDecode : Prop :=
  decode .tx 0b00000000000000000000000000000001#32 = .triEnc ∧
  decode .tx 0b00000000000000000000001000000010#32 = .waveEnc 0 2 ∧
  decode .tx 0b00000000000000001111111100110010#32 = .waveEnc 3 255 ∧
  decode .rx 0b00000000000000000000000000000011#32 = .waveDec ∧
  decode .rx 0b00000000000000000000000000000100#32 = .triDec ∧
  decode .tx 0b00000000000000000000000000000011#32 = .reservedTx 3 ∧
  decode .rx 0b00000000000000000000000000000001#32 = .reservedRx 1

/-- The pseudo-instructions expand to the bus writes of 30_encoding.md R83: one word each, which decodes to the
command with its operands, holds the pulse pair, or packs four of the twelve symbols. -/
def Obligations.PseudoInstructionsExpand : Prop :=
  (∃ w, Pseudo.triEnc.expand = [.wr .txCmd 4 (.lit w)] ∧ decode .tx w = .triEnc) ∧
  (∀ n p, ∃ w, (Pseudo.waveEnc n p).expand = [.wr .txCmd 4 (.lit w)] ∧ decode .tx w = .waveEnc p n) ∧
  (∃ w, Pseudo.waveDec.expand = [.wr .rxCmd 4 (.lit w)] ∧ decode .rx w = .waveDec) ∧
  (∃ w, Pseudo.triDec.expand = [.wr .rxCmd 4 (.lit w)] ∧ decode .rx w = .triDec) ∧
  (∀ k a d, ∃ w, (Pseudo.cap k a d).expand = [.wr (.cap k) 4 (.lit w)] ∧ PulsePair.ofWord w = ⟨a, d⟩) ∧
  (∀ n, (Pseudo.capcnt n).expand = [.wr .rxCapcnt 4 (.lit n)]) ∧
  (∀ code : Vector Byte 12, ∃ r : SymRegs,
    (Pseudo.symTx code).expand =
      [.wr .txSym0 4 (.lit r.sym0), .wr .txSym1 4 (.lit r.sym1), .wr .txSym2 4 (.lit r.sym2)] ∧
    ∀ j : Fin 12, symbolByte r j = code[j])

/-- R74: a pulse pair in a word, active duration in bits 15:0 and idle duration in bits 31:16. -/
def Obligations.PulsePairWordFormat : Prop :=
  (∀ w : Word, (PulsePair.ofWord w).active.toNat = w.toNat % 2 ^ 16 ∧
    (PulsePair.ofWord w).idle.toNat = w.toNat / 2 ^ 16) ∧
  (∀ p : PulsePair, p.toWord.toNat = p.idle.toNat * 2 ^ 16 + p.active.toNat ∧ PulsePair.ofWord p.toWord = p)

/-! ### Bus accesses -/

/-- R55: what a read of each register, buffer entry and reserved address returns, under the map of R51, in the build of
every legal record; and a read changes nothing but the reader's own variable. -/
def Obligations.ReadReturnsAddressedRegister : Prop :=
  ∀ c : Config, c.Legal →
  (∀ s : State,
    busReadWith c 0x0000 4 s = .ok 0 ∧ busReadWith c 0x0040 4 s = .ok 0 ∧
    busReadWith c 0x0004 4 s = .ok (BitVec.ofNat 32 (16 * s.tx.status.lastOp.toNat + s.tx.status.err.toNat)) ∧
    busReadWith c 0x0044 4 s = .ok (BitVec.ofNat 32 (16 * s.rx.status.lastOp.toNat + s.rx.status.err.toNat)) ∧
    busReadWith c 0x0008 4 s = .ok s.tx.bits ∧ busReadWith c 0x0048 4 s = .ok s.rx.bits ∧
    busReadWith c 0x000C 4 s = .ok (BitVec.ofNat 32 s.tx.len.toNat) ∧ busReadWith c 0x004C 4 s = .ok s.rx.tpb ∧
    busReadWith c 0x0010 4 s = .ok s.tx.sym.sym0 ∧ busReadWith c 0x0014 4 s = .ok s.tx.sym.sym1 ∧
    busReadWith c 0x0018 4 s = .ok s.tx.sym.sym2 ∧
    busReadWith c 0x0050 4 s = .ok s.rx.sym.sym0 ∧ busReadWith c 0x0054 4 s = .ok s.rx.sym.sym1 ∧
    busReadWith c 0x0058 4 s = .ok s.rx.sym.sym2 ∧
    busReadWith c 0x005C 4 s = .ok (BitVec.ofNat 32 s.rx.capcnt.toNat) ∧
    (∀ k : Fin 25, busReadWith c (BitVec.ofNat 16 (0x0080 + 4 * k.val)) 4 s = .ok s.rx.cap[k]) ∧
    (∀ k : Nat, k < c.txDepth → busReadWith c (BitVec.ofNat 16 (0x1000 + 4 * k)) 4 s = .ok (s.tx.buf.getD k 0)) ∧
    (∀ a : Addr, a.toNat % 4 = 0 →
      (0x001C ≤ a.toNat ∧ a.toNat ≤ 0x003F) ∨ (0x0060 ≤ a.toNat ∧ a.toNat ≤ 0x007F) ∨
      (0x00E4 ≤ a.toNat ∧ a.toNat ≤ 0x0FFF) ∨ 0x1000 + 4 * c.txDepth ≤ a.toNat → busReadWith c a 4 s = .ok 0)) ∧
  (∀ (s t : State) (who : AgentId) (a : Nat) (size x : Nat), agentReadWith c who a size x s = .next t →
    t.tx = s.tx ∧ t.rx = s.rx ∧ t.schedule = s.schedule ∧ (∀ b n, busReadWith c b n t = busReadWith c b n s) ∧
    ∃ v, busReadWith c (BitVec.ofNat 16 a) size s = .ok v ∧ t = s.withVar who x v)

/-- R56, R57: what a write to each register, buffer entry and reserved address does, under the map of R51, in the build
of every legal record; and a reserved address reads 0. -/
def Obligations.WriteActsByRegion : Prop :=
  ∀ (c : Config) (s : State) (v : Word), c.Legal →
    busWriteWith c 0x0000 4 v s = execWith c (decode .tx v) s ∧
    busWriteWith c 0x0040 4 v s = execWith c (decode .rx v) s ∧
    busWriteWith c 0x0008 4 v s = .next { s with tx := { s.tx with bits := v } } ∧
    busWriteWith c 0x0048 4 v s = .next { s with rx := { s.rx with bits := v } } ∧
    busWriteWith c 0x0010 4 v s = .next { s with tx := { s.tx with sym := { s.tx.sym with sym0 := v } } } ∧
    busWriteWith c 0x0014 4 v s = .next { s with tx := { s.tx with sym := { s.tx.sym with sym1 := v } } } ∧
    busWriteWith c 0x0018 4 v s = .next { s with tx := { s.tx with sym := { s.tx.sym with sym2 := v } } } ∧
    busWriteWith c 0x005C 4 v s = .next { s with rx := { s.rx with capcnt := BitVec.ofNat 16 v.toNat } } ∧
    (∀ k : Fin 25, busWriteWith c (BitVec.ofNat 16 (0x0080 + 4 * k.val)) 4 v s =
      .next { s with rx := { s.rx with cap := s.rx.cap.set k v } }) ∧
    (∀ a ∈ [(0x0004 : Addr), 0x000C, 0x0044, 0x004C, 0x0050, 0x0054, 0x0058], busWriteWith c a 4 v s = .next s) ∧
    (∀ k : Nat, k < c.txDepth → busWriteWith c (BitVec.ofNat 16 (0x1000 + 4 * k)) 4 v s = .next s) ∧
    (∀ a : Addr, a.toNat % 4 = 0 →
      (0x001C ≤ a.toNat ∧ a.toNat ≤ 0x003F) ∨ (0x0060 ≤ a.toNat ∧ a.toNat ≤ 0x007F) ∨
      (0x00E4 ≤ a.toNat ∧ a.toNat ≤ 0x0FFF) ∨ 0x1000 + 4 * c.txDepth ≤ a.toNat →
      busReadWith c a 4 s = .ok 0 ∧ busWriteWith c a 4 v s = .next s)

/-- Read after write: outside the command registers, a write shows at its own address when that address is storage
(RX_CAPCNT keeps 16 bits), and at no other address of the bus (20_memory.md R56, R57, R59). -/
def Obligations.StoreShowsOnlyAtItsAddress : Prop :=
  ∀ (s t : State) (a b : Addr) (v : Word), a.toNat ≠ 0x0000 → a.toNat ≠ 0x0040 → b.toNat % 4 = 0 →
    busWrite a 4 v s = .next t →
    (b ≠ a → busRead b 4 t = busRead b 4 s) ∧
    (a.toNat = 0x005C → busRead a 4 t = .ok (v &&& 0x0000FFFF)) ∧
    (a.toNat = 0x0008 ∨ a.toNat = 0x0010 ∨ a.toNat = 0x0014 ∨ a.toNat = 0x0018 ∨ a.toNat = 0x0048 ∨
      (0x0080 ≤ a.toNat ∧ a.toNat < 0x00E4) → busRead a 4 t = .ok v)

/-- R53, R54: an access that is not one aligned word is refused, read or write, with no next state. -/
def Obligations.NonWordAccessRefused : Prop :=
  ∀ (s : State) (a : Addr) (size : Nat) (v : Word), size ≠ 4 ∨ a.toNat % 4 ≠ 0 →
    ∃ r : Refusal, (r = .notWordAccess ∨ r = .misalignedAccess) ∧
      busRead a size s = .error r ∧ busWrite a size v s = .refused r

/-- The block never stops: every aligned word read answers, and every aligned word write, commands that fail among
them, completes (60_exceptions.md R160). -/
def Obligations.AlignedAccessCompletes : Prop :=
  ∀ (s : State) (a : Addr) (v : Word), a.toNat % 4 = 0 →
    (∃ w, busRead a 4 s = .ok w) ∧
    ∃ t, busWrite a 4 v s = .next t ∧ t.agents = s.agents ∧ t.schedule = s.schedule

/-- A host operation whose address is 2^16 or more faults: the bus has 16-bit addresses (20_memory.md R50; that the
model stops there is its own choice, notes/assumptions/6.md). -/
def Obligations.AddressBeyondBusFaults : Prop :=
  ∀ (s : State) (who : AgentId) (reg : RegRef) (size x : Nat) (value : HostExpr),
    2 ^ 16 ≤ reg.address (s.varsOf who) →
    hostOp who (.wr reg size value) s = .fault .outsideAddressSpace ∧
    hostOp who (.rd reg size x) s = .fault .outsideAddressSpace

/-- R170: every agent may read and write every register, with the same effect. -/
def Obligations.EveryAgentHasTheSameAccess : Prop :=
  ∀ (s : State) (who other : AgentId) (a v : Word) (size : Nat),
    hostOp who (.wr (.byteAddress (.lit a)) size (.lit v)) s =
      hostOp other (.wr (.byteAddress (.lit a)) size (.lit v)) s ∧
    (∀ t x, hostOp who (.rd (.byteAddress (.lit a)) size x) s = .next t →
      ∃ w, t = s.withVar who x w ∧
        hostOp other (.rd (.byteAddress (.lit a)) size x) s = .next (s.withVar other x w)) ∧
    (a.toNat < 2 ^ 16 → a.toNat % 4 = 0 →
      (∃ t, hostOp who (.wr (.byteAddress (.lit a)) 4 (.lit v)) s = .next t) ∧
      ∀ x, ∃ t, hostOp who (.rd (.byteAddress (.lit a)) 4 x) s = .next t)

/-! ### Reset -/

/-- R38: after reset every register and every buffer entry is 0, in the build of every record, so every aligned address
reads 0; and the machine's reset state is that of the default record. -/
def Obligations.ResetIsZeroEverywhere : Prop :=
  (∀ c : Config,
    (∀ a : Addr, a.toNat % 4 = 0 → busReadWith c a 4 (State.resetWith c) = .ok 0) ∧
    (State.resetWith c).tx.status = ⟨0, 0⟩ ∧ (State.resetWith c).rx.status = ⟨0, 0⟩ ∧
    (State.resetWith c).tx.bits = 0 ∧ (State.resetWith c).rx.bits = 0 ∧
    (State.resetWith c).tx.len = 0 ∧ (State.resetWith c).rx.tpb = 0 ∧ (State.resetWith c).rx.capcnt = 0 ∧
    (∀ j, j < 12 →
      symbolByte (State.resetWith c).tx.sym j = 0 ∧ symbolByte (State.resetWith c).rx.sym j = 0) ∧
    (State.resetWith c).tx.buf.length = c.txDepth ∧ (∀ w ∈ (State.resetWith c).tx.buf, w = 0) ∧
    (∀ k : Fin 25, (State.resetWith c).rx.cap[k] = 0)) ∧
  State.reset = State.resetWith Config.built

/-- A reset turn puts every register and buffer entry at its reset value, in the build of every record, which reset does
not touch (70_reset_and_hazards.md R190); that the agents outside the block go on as they were is the model's choice
(notes/assumptions/7.md). -/
def Obligations.ResetTurnRestoresBlock : Prop :=
  ∀ (c : Config) (s : State) (rest : List Turn), s.schedule = .reset :: rest →
    stepWith c s = .next
      { tx := (State.resetWith c).tx, rx := (State.resetWith c).rx, agents := s.agents, schedule := rest } ∧
    step s = .next { tx := State.reset.tx, rx := State.reset.rx, agents := s.agents, schedule := rest }

/-- The four commands right after reset (70_reset_and_hazards.md R192), `wave.enc` for the repeat counts that
TX_DEPTH = 256 holds (notes/assumptions/4.md). -/
def Obligations.CommandsRightAfterReset : Prop :=
  exec .triEnc State.reset =
    .next { State.reset with tx := { State.reset.tx with status := ⟨5, 1⟩ } } ∧
  exec .waveDec State.reset =
    .next { State.reset with rx := { State.reset.rx with status := ⟨6, 3⟩ } } ∧
  exec .triDec State.reset =
    .next { State.reset with rx :=
      { State.reset.rx with status := ⟨0, 4⟩, sym := ⟨0x30303030, 0x30303030, 0x30303030⟩ } } ∧
  (∀ n : BitVec 8, n.toNat ≤ 10 → ∃ t, exec (.waveEnc 0 n) State.reset = .next t ∧
    t.tx.status = ⟨0, 2⟩ ∧ t.tx.len.toNat = 25 * n.toNat ∧ t.rx = State.reset.rx ∧
    ∀ r, r < n.toNat → t.tx.buf.getD (25 * r) 0 = Config.sync0.toWord ∧
      ∀ i, i < 24 → t.tx.buf.getD (25 * r + 1 + i) 0 = 0x01480370)

/-! ### Status and errors -/

/-- R164: a command written to a channel ends by writing that channel's STATUS, ERR the code it ends with and
LAST_OP = cmd[3:0], bits 31:8 reading 0; the other channel's STATUS is as before, and no other access writes one. -/
def Obligations.CommandWritesItsStatus : Prop :=
  ∀ (s : State) (w : Word),
    (∃ t, busWrite 0x0000 4 w s = .next t ∧
      t.tx.status = ⟨(commandCode (decode .tx w) s).code, BitVec.ofNat 4 (w.toNat % 16)⟩ ∧
      t.rx.status = s.rx.status ∧ ∃ v, busRead 0x0004 4 t = .ok v ∧ v.toNat / 256 = 0) ∧
    (∃ t, busWrite 0x0040 4 w s = .next t ∧
      t.rx.status = ⟨(commandCode (decode .rx w) s).code, BitVec.ofNat 4 (w.toNat % 16)⟩ ∧
      t.tx.status = s.tx.status ∧ ∃ v, busRead 0x0044 4 t = .ok v ∧ v.toNat / 256 = 0) ∧
    (∀ (a : Addr) (t : State), a.toNat ≠ 0x0000 → a.toNat ≠ 0x0040 → busWrite a 4 w s = .next t →
      t.tx.status = s.tx.status ∧ t.rx.status = s.rx.status)

/-- R162: the codes each command can report. -/
def Obligations.CommandsReportOnlyTheirCodes : Prop :=
  ∀ (s t : State),
    (exec .triEnc s = .next t → t.tx.status.err = 0 ∨ t.tx.status.err = 5) ∧
    (∀ p n, exec (.waveEnc p n) s = .next t →
      t.tx.status.err = 0 ∨ t.tx.status.err = 2 ∨ t.tx.status.err = 3) ∧
    (exec .waveDec s = .next t → t.rx.status.err = 0 ∨ t.rx.status.err = 6 ∨ t.rx.status.err = 5) ∧
    (exec .triDec s = .next t → t.rx.status.err = 0 ∨ t.rx.status.err = 5) ∧
    (∀ op, exec (.reservedTx op) s = .next t → t.tx.status.err = 1) ∧
    (∀ op, exec (.reservedRx op) s = .next t → t.rx.status.err = 1)

/-- R163: no step writes code 4, 7 or 8 to 15: a STATUS that holds one after a step held it before. ERR_INV_ARGUMENT
is written for reserved opcodes only. -/
def Obligations.UnusedCodesNeverWritten : Prop :=
  ∀ (s t : State), step s = .next t →
    (t.tx.status.err = 4 ∨ 7 ≤ t.tx.status.err.toNat → t.tx.status = s.tx.status) ∧
    (t.rx.status.err = 4 ∨ 7 ≤ t.rx.status.err.toNat → t.rx.status = s.rx.status) ∧
    (t.tx.status.err = 1 → t.tx.status ≠ s.tx.status →
      ∃ who v op, nextAccess s = some (who, .write 0x0000 v) ∧ decode .tx v = .reservedTx op) ∧
    (t.rx.status.err = 1 → t.rx.status ≠ s.rx.status →
      ∃ who v op, nextAccess s = some (who, .write 0x0040 v) ∧ decode .rx v = .reservedRx op)

/-- R165: an error is not sticky: what a command does does not depend on what its STATUS held. -/
def Obligations.ErrorsAreNotSticky : Prop :=
  ∀ (i : Instr) (s : State) (st : Status),
    (i.cmdReg = .tx → exec i { s with tx := { s.tx with status := st } } = exec i s) ∧
    (i.cmdReg = .rx → exec i { s with rx := { s.rx with status := st } } = exec i s)

/-- Nothing but a command on its register, or reset, changes a STATUS register (10_state.md R22, R29, R35). -/
def Obligations.OnlyCommandsChangeStatus : Prop :=
  ∀ (s t : State), step s = .next t → s.schedule.head? ≠ some .reset →
    (t.tx.status ≠ s.tx.status → ∃ who v, nextAccess s = some (who, .write 0x0000 v)) ∧
    (t.rx.status ≠ s.rx.status → ∃ who v, nextAccess s = some (who, .write 0x0040 v))

/-- TXBUF and TX_LEN change only by `wave.enc`, RX_TPB only by `wave.dec`, RX_SYM only by `tri.dec`, TX_SYM, CAP and
RX_CAPCNT by no command, and each by reset (10_state.md R26, R27, R31, R32; 42_waveform_decoder.md R139). -/
def Obligations.ResultRegistersHaveOneWriter : Prop :=
  ∀ (s t : State), step s = .next t → s.schedule.head? ≠ some .reset →
    (t.tx.buf ≠ s.tx.buf ∨ t.tx.len ≠ s.tx.len →
      ∃ who v, nextAccess s = some (who, .write 0x0000 v) ∧ v.toNat % 16 = 2) ∧
    (t.rx.tpb ≠ s.rx.tpb → ∃ who v, nextAccess s = some (who, .write 0x0040 v) ∧ v.toNat % 16 = 3) ∧
    (t.rx.sym ≠ s.rx.sym → ∃ who v, nextAccess s = some (who, .write 0x0040 v) ∧ v.toNat % 16 = 4) ∧
    (t.tx.sym ≠ s.tx.sym →
      ∃ who a v, nextAccess s = some (who, .write a v) ∧ 0x0010 ≤ a.toNat ∧ a.toNat ≤ 0x0018) ∧
    (t.rx.cap ≠ s.rx.cap →
      ∃ who a v, nextAccess s = some (who, .write a v) ∧ 0x0080 ≤ a.toNat ∧ a.toNat < 0x00E4) ∧
    (t.rx.capcnt ≠ s.rx.capcnt → ∃ who v, nextAccess s = some (who, .write 0x005C v))

/-- R166, R167: the first check that fails decides the code, and a failed command leaves the state as it was but for
its STATUS and, after `wave.enc`, TX_LEN = 0. -/
def Obligations.FirstFailingCheckDecides : Prop :=
  ∀ (c : Config) (s : State),
    (∀ op, reservedOnTx op = true →
      exec (.reservedTx op) s = .next { s with tx := { s.tx with status := ⟨1, op⟩ } }) ∧
    (∀ op, reservedOnRx op = true →
      exec (.reservedRx op) s = .next { s with rx := { s.rx with status := ⟨1, op⟩ } }) ∧
    (∀ (p : BitVec 2) (n : BitVec 8), 2 ≤ p.toNat →
      execWaveEncWith c p n s = .next { s with tx := { s.tx with status := ⟨2, 2⟩, len := 0 } }) ∧
    (∀ (p : BitVec 2) (n : BitVec 8), p.toNat < 2 → c.txDepth < 25 * n.toNat →
      execWaveEncWith c p n s = .next { s with tx := { s.tx with status := ⟨3, 2⟩, len := 0 } }) ∧
    (frameOk c s.rx = false →
      execWaveDecWith c s = .next { s with rx := { s.rx with status := ⟨6, 3⟩ } }) ∧
    (frameOk c s.rx = true → (∃ i : Fin 24, classify c (PulsePair.ofWord s.rx.cap[i.val]) = none) →
      execWaveDecWith c s = .next { s with rx := { s.rx with status := ⟨5, 3⟩ } }) ∧
    ((∃ j, j < 12 ∧ symToPair (symbolByte s.tx.sym j) = none) →
      exec .triEnc s = .next { s with tx := { s.tx with status := ⟨5, 1⟩ } }) ∧
    ((∃ j, j < 12 ∧ pairToSym (pairOf s.rx.bits j) = none) →
      exec .triDec s = .next { s with rx := { s.rx with status := ⟨5, 4⟩ } })

/-- R79: a reserved opcode written to a command register sets ERR_INV_ARGUMENT and LAST_OP = OP in that channel's
STATUS and changes nothing else. -/
def Obligations.ReservedOpcodeSetsOnlyStatus : Prop :=
  ∀ (s : State) (w : Word),
    (w.toNat % 16 ≠ 1 → w.toNat % 16 ≠ 2 → busWrite 0x0000 4 w s =
      .next { s with tx := { s.tx with status := ⟨1, BitVec.ofNat 4 (w.toNat % 16)⟩ } }) ∧
    (w.toNat % 16 ≠ 3 → w.toNat % 16 ≠ 4 → busWrite 0x0040 4 w s =
      .next { s with rx := { s.rx with status := ⟨1, BitVec.ofNat 4 (w.toNat % 16)⟩ } }) ∧
    (∀ op, exec (.reservedTx op) s = .next { s with tx := { s.tx with status := ⟨1, op⟩ } }) ∧
    (∀ op, exec (.reservedRx op) s = .next { s with rx := { s.rx with status := ⟨1, op⟩ } })

/-- R39: each command writes only its outputs and its STATUS, on an error only what the table's last column lists; and
what it writes depends only on the registers it reads. -/
def Obligations.CommandsReadAndWriteOnlyTheirRegisters : Prop :=
  (∀ (s t : State),
    (exec .triEnc s = .next t →
      t = { s with tx := { s.tx with status := t.tx.status, bits := t.tx.bits } } ∧
      (t.tx.status.err ≠ 0 → t.tx.bits = s.tx.bits)) ∧
    (∀ p n, exec (.waveEnc p n) s = .next t →
      t = { s with tx := { s.tx with status := t.tx.status, len := t.tx.len, buf := t.tx.buf } } ∧
      (∀ k, 25 * n.toNat ≤ k → t.tx.buf.getD k 0 = s.tx.buf.getD k 0) ∧
      (t.tx.status.err ≠ 0 → t.tx.len = 0 ∧ t.tx.buf = s.tx.buf)) ∧
    (exec .waveDec s = .next t →
      t = { s with rx := { s.rx with status := t.rx.status, bits := t.rx.bits, tpb := t.rx.tpb } } ∧
      (t.rx.status.err ≠ 0 → t.rx.bits = s.rx.bits ∧ t.rx.tpb = s.rx.tpb)) ∧
    (exec .triDec s = .next t →
      t = { s with rx := { s.rx with status := t.rx.status, sym := t.rx.sym } } ∧
      (t.rx.status.err ≠ 0 → t.rx.sym = s.rx.sym)) ∧
    (∀ op, exec (.reservedTx op) s = .next t → t = { s with tx := { s.tx with status := t.tx.status } }) ∧
    (∀ op, exec (.reservedRx op) s = .next t → t = { s with rx := { s.rx with status := t.rx.status } })) ∧
  (∀ (s s' t t' : State),
    (s.tx.sym = s'.tx.sym → exec .triEnc s = .next t → exec .triEnc s' = .next t' →
      t.tx.status = t'.tx.status ∧ (t.tx.status.err = 0 → t.tx.bits = t'.tx.bits)) ∧
    (∀ p n, s.tx.bits.setWidth 24 = s'.tx.bits.setWidth 24 → s.tx.buf.length = s'.tx.buf.length →
      exec (.waveEnc p n) s = .next t → exec (.waveEnc p n) s' = .next t' →
      t.tx.status = t'.tx.status ∧ t.tx.len = t'.tx.len ∧
      ∀ k, k < t.tx.len.toNat → t.tx.buf.getD k 0 = t'.tx.buf.getD k 0) ∧
    (s.rx.capcnt = s'.rx.capcnt → s.rx.cap = s'.rx.cap →
      exec .waveDec s = .next t → exec .waveDec s' = .next t' →
      t.rx.status = t'.rx.status ∧
      (t.rx.status.err = 0 → t.rx.bits = t'.rx.bits ∧ t.rx.tpb = t'.rx.tpb)) ∧
    (s.rx.bits.setWidth 24 = s'.rx.bits.setWidth 24 →
      exec .triDec s = .next t → exec .triDec s' = .next t' →
      t.rx.status = t'.rx.status ∧ (t.rx.status.err = 0 → t.rx.sym = t'.rx.sym)) ∧
    (∀ op, exec (.reservedTx op) s = .next t → exec (.reservedTx op) s' = .next t' →
      t.tx.status = t'.tx.status) ∧
    (∀ op, exec (.reservedRx op) s = .next t → exec (.reservedRx op) s' = .next t' →
      t.rx.status = t'.rx.status))

/-! ### Tri-state symbol codec -/

/-- R94 with R92: `tri.enc` sets the pair of every symbol and clears bits 31:24 of TX_BITS when all twelve symbols are
valid, and else reports ERR_INV_CODE_SYM and writes nothing more. -/
def Obligations.TriEncSetsPairsOfSymbols : Prop :=
  ∀ s : State,
    ((∀ j, j < 12 → symbolByte s.tx.sym j ∈ [(0x30 : Byte), 0x31, 0x46, 0x66]) →
      ∃ b : Word,
        exec .triEnc s = .next { s with tx := { s.tx with status := ⟨0, 1⟩, bits := b } } ∧
        (∀ j, j < 12 →
          (b.getLsbD (2 * j + 1) = true ↔ symbolByte s.tx.sym j ∈ [(0x31 : Byte), 0x46, 0x66]) ∧
          (b.getLsbD (2 * j) = true ↔ symbolByte s.tx.sym j = 0x31)) ∧
        b.toNat < 2 ^ 24) ∧
    (∀ j, j < 12 → symbolByte s.tx.sym j ∉ [(0x30 : Byte), 0x31, 0x46, 0x66] →
      exec .triEnc s = .next { s with tx := { s.tx with status := ⟨5, 1⟩ } }) ∧
    ∀ w : Word, w.toNat % 16 = 1 → busWrite 0x0000 4 w s = exec .triEnc s

/-- R95 with R91: `tri.dec` writes the symbol of every pair when no pair of RX_BITS[23:0] is 01, and else reports
ERR_INV_CODE_SYM and writes nothing more. -/
def Obligations.TriDecWritesSymbolsOfPairs : Prop :=
  ∀ s : State,
    ((∀ j, j < 12 → s.rx.bits.getLsbD (2 * j) = true → s.rx.bits.getLsbD (2 * j + 1) = true) →
      ∃ r : SymRegs,
        exec .triDec s = .next { s with rx := { s.rx with status := ⟨0, 4⟩, sym := r } } ∧
        ∀ j, j < 12 → symbolByte r j =
          if s.rx.bits.getLsbD (2 * j + 1) then (if s.rx.bits.getLsbD (2 * j) then 0x31 else 0x46) else 0x30) ∧
    (∀ j, j < 12 → s.rx.bits.getLsbD (2 * j) = true → s.rx.bits.getLsbD (2 * j + 1) = false →
      exec .triDec s = .next { s with rx := { s.rx with status := ⟨5, 4⟩ } }) ∧
    ∀ w : Word, w.toNat % 16 = 4 → busWrite 0x0040 4 w s = exec .triDec s

/-- R93: the two-state automaton over the bits of a pattern gives the same symbols, or the same failure, as the
table of R91. -/
def Obligations.AutomatonDecodesAsTable : Prop :=
  ∀ b : Word, (triAutomatonRun .a (triReadOrder b)).map SymRegs.ofSymbols = triDecode b

/-- R96: `tri.enc` then `tri.dec` gives the code back with 'f' written 'F', and for a pattern with no pair 01
`tri.dec` then `tri.enc` gives the pattern back. -/
def Obligations.SymbolCodecRoundTrip : Prop :=
  (∀ s u : State, (∀ j, j < 12 → symbolByte s.tx.sym j ∈ [(0x30 : Byte), 0x31, 0x46, 0x66]) →
    ∃ t, exec .triEnc s = .next t ∧ t.tx.status.err = 0 ∧
      (u.rx.bits = t.tx.bits → ∃ v, exec .triDec u = .next v ∧ v.rx.status.err = 0 ∧
        ∀ j, j < 12 → symbolByte v.rx.sym j =
          if symbolByte s.tx.sym j = 0x66 then 0x46 else symbolByte s.tx.sym j)) ∧
  (∀ s u : State,
    (∀ j, j < 12 → s.rx.bits.getLsbD (2 * j) = true → s.rx.bits.getLsbD (2 * j + 1) = true) →
    ∃ t, exec .triDec s = .next t ∧ t.rx.status.err = 0 ∧
      (u.tx.sym = t.rx.sym → ∃ v, exec .triEnc u = .next v ∧ v.tx.status.err = 0 ∧
        v.tx.bits = s.rx.bits &&& 0x00FFFFFF))

/-- The successful outputs of `tri.enc` are exactly the 24-bit patterns with no pair 01 (40_symbol_codec.md R97). -/
def Obligations.TriEncOutputsHaveNoPair01 : Prop :=
  ∀ b : Word,
    (∃ s t : State, exec .triEnc s = .next t ∧ t.tx.status.err = 0 ∧ t.tx.bits = b) ↔
    (b.toNat < 2 ^ 24 ∧ ∀ j, j < 12 → b.getLsbD (2 * j) = true → b.getLsbD (2 * j + 1) = true)

/-! ### Waveform encoder -/

/-- R111, R112, R113, R114: under every configuration record, `wave.enc` with a profile and a train that fits
writes TX_LEN = 25 n and n equal frames, SYNC then HIGH or LOW by bits 0 to 23 of TX_BITS, and leaves the other
entries; without a profile, or with a train that does not fit, it sets TX_LEN = 0 and leaves TXBUF. -/
def Obligations.WaveEncWritesTrain : Prop :=
  ∀ (c : Config) (psel : BitVec 2) (rep : BitVec 8) (s : State), s.tx.buf.length = c.txDepth →
    (∀ p : Profile, psel = 0 ∧ p = c.profile0 ∨ psel = 1 ∧ p = c.profile1 → 25 * rep.toNat ≤ c.txDepth →
      ∃ buf : List Word,
        execWaveEncWith c psel rep s = .next { s with tx :=
          { s.tx with status := ⟨0, 2⟩, len := BitVec.ofNat 16 (25 * rep.toNat), buf := buf } } ∧
        buf.length = c.txDepth ∧
        (∀ r, r < rep.toNat → buf.getD (25 * r) 0 = p.sync.toWord ∧
          ∀ i, i < 24 → buf.getD (25 * r + 1 + i) 0 =
            if s.tx.bits.getLsbD i then p.high.toWord else p.low.toWord) ∧
        (∀ k, 25 * rep.toNat ≤ k → buf.getD k 0 = s.tx.buf.getD k 0)) ∧
    (psel = 2 ∨ psel = 3 →
      execWaveEncWith c psel rep s = .next { s with tx := { s.tx with status := ⟨2, 2⟩, len := 0 } }) ∧
    (psel = 0 ∨ psel = 1 → c.txDepth < 25 * rep.toNat →
      execWaveEncWith c psel rep s = .next { s with tx := { s.tx with status := ⟨3, 2⟩, len := 0 } }) ∧
    ∀ w : Word, w.toNat % 16 = 2 → busWrite 0x0000 4 w s =
      execWaveEncWith Config.built (BitVec.ofNat 2 (w.toNat / 16 % 4)) (BitVec.ofNat 8 (w.toNat / 256 % 256)) s

/-- `wave.enc` as the machine runs it, TX_DEPTH = 256 and HIGH0, LOW0 the window centers (notes/assumptions/4.md): it
completes for PSEL 0 and 1 and every n ≤ 10, n = 0 and n = 1 among them, and TXBUF holds the train of the selected
profile, whose OPEN pairs are the opaque constants of Config (41_waveform_encoder.md R110, R113, R115). -/
def Obligations.WaveEncCompletesOnTheMachine : Prop :=
  ∀ (psel : BitVec 2) (rep : BitVec 8) (p : Profile) (s : State), Memory.wf s →
    psel = 0 ∧ p = Config.built.profile0 ∨ psel = 1 ∧ p = Config.built.profile1 → rep.toNat ≤ 10 →
    ∃ buf : List Word,
      exec (.waveEnc psel rep) s = .next { s with tx :=
        { s.tx with status := ⟨0, 2⟩, len := BitVec.ofNat 16 (25 * rep.toNat), buf := buf } } ∧
      buf.length = 256 ∧
      (∀ k, 25 * rep.toNat ≤ k → buf.getD k 0 = s.tx.buf.getD k 0) ∧
      ∀ r, r < rep.toNat →
        buf.getD (25 * r) 0 = p.sync.toWord ∧
        (∀ i, i < 24 → buf.getD (25 * r + 1 + i) 0 = if s.tx.bits.getLsbD i then p.high.toWord else p.low.toWord) ∧
        (psel = 0 → ∀ i, i < 24 →
          buf.getD (25 * r + 1 + i) 0 = if s.tx.bits.getLsbD i then 0x03700148 else 0x01480370)

/-! ### Waveform decoder -/

/-- R130, R131, R132: a pair classifies by the two windows, open below and closed above; a pair of both shapes goes by
AMBIG_POLICY; and the default windows are 29 to 628 and 531 to 1230. -/
def Obligations.PairsClassifyByWindows : Prop :=
  (∀ (c : Config) (p : PulsePair),
    let inside (x : Dur) (w : Window) : Prop :=
      (w.center : Int) - (w.spread : Int) < (x.toNat : Int) ∧ (x.toNat : Int) ≤ (w.center : Int) + (w.spread : Int)
    let high := inside p.active c.winShort ∧ inside p.idle c.winLong
    let low := inside p.active c.winLong ∧ inside p.idle c.winShort
    (high → ¬low → classify c p = some true) ∧
    (low → ¬high → classify c p = some false) ∧
    (¬high → ¬low → classify c p = none) ∧
    (high → low → c.ambigPolicy = .reject → classify c p = none) ∧
    (high → low → c.ambigPolicy = .highFirst → classify c p = some true)) ∧
  (∀ x : Dur,
    (inWin x Config.built.winShort = true ↔ 29 ≤ x.toNat ∧ x.toNat ≤ 628) ∧
    (inWin x Config.built.winLong = true ↔ 531 ≤ x.toNat ∧ x.toNat ≤ 1230))

/-- R133, R134, R137: under every configuration record, a capture of 25 pairs with a valid trailer whose data pairs
all classify gives its bits in RX_BITS and floor(sum / 96) in RX_TPB; a bad frame gives ERR_INV_FRAME, else an
unclassifiable pair ERR_INV_CODE_SYM, and nothing more is written. -/
def Obligations.WaveDecDecodesCapture : Prop :=
  ∀ (c : Config) (s : State),
    let pairAt (i : Fin 25) : PulsePair := PulsePair.ofWord s.rx.cap[i]
    let frame : Prop := s.rx.capcnt.toNat = 25 ∧ c.trailMin ≤ (pairAt 24).active.toNat ∧
      (pairAt 24).active.toNat < c.trailMax ∧ (pairAt 24).idle.toNat = 0
    (∀ bit : Fin 24 → Bool, frame → (∀ i : Fin 24, classify c (pairAt i.castSucc) = some (bit i)) →
      ∃ b : Word,
        execWaveDecWith c s = .next { s with rx :=
          { s.rx with
            status := ⟨0, 3⟩
            bits := b
            tpb := BitVec.ofNat 32
              ((∑ i : Fin 24, ((pairAt i.castSucc).active.toNat + (pairAt i.castSucc).idle.toNat)) / 96) } } ∧
        (∀ i : Fin 24, b.getLsbD i = bit i) ∧ b.toNat < 2 ^ 24) ∧
    (¬frame → execWaveDecWith c s = .next { s with rx := { s.rx with status := ⟨6, 3⟩ } }) ∧
    (frame → (∃ i : Fin 24, classify c (pairAt i.castSucc) = none) →
      execWaveDecWith c s = .next { s with rx := { s.rx with status := ⟨5, 3⟩ } }) ∧
    ∀ w : Word, w.toNat % 16 = 3 → busWrite 0x0040 4 w s = execWaveDecWith Config.built s

/-- `wave.dec` as the machine runs it (REJECT and the default windows, notes/assumptions/4.md) completes on every
capture of 25 pairs with a trailer in [150, 400) and idle 0 whose data pairs each have exactly one shape
(42_waveform_decoder.md R137). -/
def Obligations.WaveDecCompletesOnTheMachine : Prop :=
  ∀ s : State, s.rx.capcnt = 25 →
    150 ≤ (PulsePair.ofWord s.rx.cap[24]).active.toNat → (PulsePair.ofWord s.rx.cap[24]).active.toNat < 400 →
    (PulsePair.ofWord s.rx.cap[24]).idle = 0 →
    (∀ p ∈ dataPairs s.rx.cap, highShape Config.built p ≠ lowShape Config.built p) →
    ∃ b : Word,
      exec .waveDec s = .next { s with rx :=
        { s.rx with status := ⟨0, 3⟩, bits := b, tpb := BitVec.ofNat 32 (ticksPerBit s.rx.cap) } } ∧
      (∀ i : Fin 24, b.getLsbD i = highShape Config.built (PulsePair.ofWord s.rx.cap[i.val])) ∧ b.toNat < 2 ^ 24

/-- R135, R136: the calibration sum is below 48 · 2^16 and the ticks per bit, its floor quotient by 96, below 2^15;
140 to 464 when every pair classifies under the default windows. -/
def Obligations.TicksPerBitBounds : Prop :=
  ∀ cap : Vector Word 25,
    calibrationSum cap =
      ∑ i : Fin 24, ((PulsePair.ofWord cap[i.val]).active.toNat + (PulsePair.ofWord cap[i.val]).idle.toNat) ∧
    calibrationSum cap < 48 * 2 ^ 16 ∧
    ticksPerBit cap = calibrationSum cap / 96 ∧ ticksPerBit cap < 2 ^ 15 ∧
    (∀ p : PulsePair, classify Config.built p ≠ none →
      560 ≤ p.active.toNat + p.idle.toNat ∧ p.active.toNat + p.idle.toNat ≤ 1858) ∧
    ((∀ p ∈ dataPairs cap, classify Config.built p ≠ none) → 140 ≤ ticksPerBit cap ∧ ticksPerBit cap ≤ 464)

/-- R139: `wave.dec` writes neither CAP nor RX_CAPCNT, and a second `wave.dec` on the same capture gives the same
result. -/
def Obligations.WaveDecKeepsCapture : Prop :=
  ∀ s t : State, exec .waveDec s = .next t →
    t.rx.cap = s.rx.cap ∧ t.rx.capcnt = s.rx.capcnt ∧ exec .waveDec t = .next t

/-- R141: the ideal channel cuts a train of n frames into n − 1 captures of 25 pairs, the data pairs of a frame and
then the active part of the next SYNC with idle 0. -/
def Obligations.IdealChannelCutsAtSync : Prop :=
  ∀ (b : Word) (n : Nat) (p : Profile), 2 ≤ n →
    (idealChannel (train b n p) n).length = n - 1 ∧
    ∀ k, k < n - 1 → ∃ cap : List PulsePair,
      (idealChannel (train b n p) n)[k]? = some cap ∧ cap.length = 25 ∧
      (∀ i, i < 24 → cap[i]? = some (if b.getLsbD i then p.high else p.low) ∧
        cap[i]? = (train b n p)[25 * k + 1 + i]?) ∧
      cap[24]? = some ⟨p.sync.active, 0⟩

/-- R142: through the ideal channel, `wave.dec` gives back the pattern of every capture of a train, under every record
and profile that R3 and R4 allow, with the ticks per bit of its pulses; 302 for the default pulses. -/
def Obligations.IdealChannelRoundTrip : Prop :=
  ∀ (c : Config) (p : Profile) (b : Word) (n k : Nat) (s : State),
    c.Legal → RoundTripProfile c p → 2 ≤ n → k < n - 1 →
    let loaded : State := { s with rx := s.rx.withCapture (idealCapture (train b n p) k) }
    let m := ((List.range 24).filter b.getLsbD).length
    ∃ tpb : Word,
      execWaveDecWith c loaded = .next { loaded with rx :=
        { loaded.rx with status := ⟨0, 3⟩, bits := b &&& 0x00FFFFFF, tpb := tpb } } ∧
      tpb.toNat = (m * (p.high.active.toNat + p.high.idle.toNat) +
        (24 - m) * (p.low.active.toNat + p.low.idle.toNat)) / 96 ∧
      (p.high = ⟨328, 880⟩ → p.low = ⟨880, 328⟩ → tpb = 302)

/-- Transmit, then receive over the bus: after a `wave.enc` of n ≥ 2 frames, copying one frame's data words of TXBUF
and the active half of the next SYNC word into CAP and running `wave.dec` gives the transmitted 24 bits in RX_BITS
(42_waveform_decoder.md R142, 41_waveform_encoder.md R114, 30_encoding.md R74). -/
def Obligations.TransmittedPatternIsReceived : Prop :=
  ∀ (c : Config) (psel : BitVec 2) (rep : BitVec 8) (p : Profile) (k : Nat) (s t : State),
    profileOf c psel = some p → RoundTripProfile c p → s.tx.buf.length = c.txDepth → 25 * rep.toNat ≤ c.txDepth →
    k + 1 < rep.toNat → execWaveEncWith c psel rep s = .next t →
    t.rx.capcnt = s.rx.capcnt ∧
    ∀ u : State, u.rx.capcnt = 25 →
      (∀ i : Fin 24, u.rx.cap[i.val] = t.tx.buf.getD (25 * k + 1 + i.val) 0) →
      u.rx.cap[24] = t.tx.buf.getD (25 * (k + 1)) 0 &&& 0x0000FFFF →
      ∃ v, execWaveDecWith c u = .next v ∧ v.rx.status = ⟨0, 3⟩ ∧ v.rx.bits = s.tx.bits &&& 0x00FFFFFF

/-! ### The machine -/

/-- A step in which an agent writes a word to a command register runs the decoded command, on the state with that turn
and that operation taken: on the machine, and in the build of every record (10_state.md R21, R28, R37; 60_exceptions.md
R182; 70_reset_and_hazards.md R193). -/
def Obligations.StepRunsDecodedCommand : Prop :=
  ∀ (s : State) (who : AgentId) (rest : List Turn) (reg : RegRef) (value : HostExpr) (ops : List HostOp),
    s.schedule = .agent who :: rest → (s.agents.get who).todo = .wr reg 4 value :: ops →
    (reg.address (s.varsOf who) = 0x0000 →
      step s = exec (decode .tx (value.eval (s.varsOf who))) ({ s with schedule := rest }.withTodo who ops) ∧
      ∀ c : Config, stepWith c s =
        execWith c (decode .tx (value.eval (s.varsOf who))) ({ s with schedule := rest }.withTodo who ops)) ∧
    (reg.address (s.varsOf who) = 0x0040 →
      step s = exec (decode .rx (value.eval (s.varsOf who))) ({ s with schedule := rest }.withTodo who ops) ∧
      ∀ c : Config, stepWith c s =
        execWith c (decode .rx (value.eval (s.varsOf who))) ({ s with schedule := rest }.withTodo who ops))

/-- A table word placed for the next step is run by that step, with nothing else changed (the model's own loader,
notes/assumptions/2.md and notes/assumptions/3.md). -/
def Obligations.PlacedWordIsRun : Prop :=
  ∀ (s : State) (nbits w : Nat), nbits ≤ 32 → w < 2 ^ nbits →
    ∃ i, decodeTableWord nbits w = some i ∧ i.wf = true ∧ step (s.withFetchWord nbits w) = exec i s

/-- A step in which an agent reads a word gives that word to the agent's variable and takes the turn and the operation;
the block, the agent's program and other variables, and the other agents are as before (30_encoding.md R82, 20_memory.md R55). -/
def Obligations.StepDeliversReadValue : Prop :=
  ∀ (s : State) (who : AgentId) (rest : List Turn) (reg : RegRef) (x : Nat) (ops : List HostOp),
    s.schedule = .agent who :: rest → (s.agents.get who).todo = .rd reg 4 x :: ops →
    reg.address (s.varsOf who) < 2 ^ 16 → reg.address (s.varsOf who) % 4 = 0 →
    ∃ t v, step s = .next t ∧ busRead (BitVec.ofNat 16 (reg.address (s.varsOf who))) 4 s = .ok v ∧
      t.tx = s.tx ∧ t.rx = s.rx ∧ t.schedule = rest ∧ (t.agents.get who).todo = ops ∧
      (t.agents.get who).prog = (s.agents.get who).prog ∧ t.varsOf who x = v ∧
      (∀ y, y ≠ x → t.varsOf who y = s.varsOf who y) ∧
      ∀ other, other ≠ who → t.agents.get other = s.agents.get other

/-- Nothing in the block changes but by a write or a reset (60_exceptions.md R182). With no turn left nothing is
pending; that such a step answers the same state is the model's choice (notes/assumptions/1.md). -/
def Obligations.BlockChangesOnlyInWrites : Prop :=
  (∀ s t : State, step s = .next t → s.schedule.head? ≠ some .reset →
    (∀ who a v, nextAccess s ≠ some (who, .write a v)) → t.tx = s.tx ∧ t.rx = s.rx) ∧
  (∀ s : State, s.schedule = [] → step s = .next s)

/-- The invariant of Safety.lean holds right after reset, in the build of every record and on the machine. -/
def Obligations.InvariantAtReset : Prop := (∀ c : Config, (State.resetWith c).InvWith c) ∧ State.reset.Inv

/-- Every step keeps the invariant, in the build of every record, the machine among them: TXBUF whole and its first LEN
entries the train of some pattern, STATUS a code its last command can report, RX_TPB below 2^15, RX_SYM symbols of the
alphabet, host variables one entry a name (10_state.md R22, R26, R27, R29, R31, R32, R37; 60_exceptions.md R162). -/
def Obligations.StepKeepsInvariant : Prop :=
  (∀ (c : Config) (s t : State), s.InvWith c → stepWith c s = .next t → t.InvWith c) ∧
  (∀ s t : State, s.Inv → step s = .next t → t.Inv)

/-- R201: an access to the TX channel and an access to the RX channel commute, and a write on one side changes no
register of the other. -/
def Obligations.ChannelsDoNotInterfere : Prop :=
  ∀ (s t u : State) (a b : Addr) (v w : Word),
    (a.toNat < 0x0040 ∨ 0x1000 ≤ a.toNat) → (0x0040 ≤ b.toNat ∧ b.toNat < 0x1000) →
    busWrite a 4 v s = .next t → busWrite b 4 w s = .next u →
    t.rx = s.rx ∧ u.tx = s.tx ∧ busRead b 4 t = busRead b 4 s ∧ busRead a 4 u = busRead a 4 s ∧
    ∃ z, busWrite b 4 w t = .next z ∧ busWrite a 4 v u = .next z

/-- While PulseGen reads a train, a step that breaks no duty leaves TX_LEN and TXBUF alone, reset apart
(70_reset_and_hazards.md R196; the observer of the duties is the model's, notes/assumptions/12.md). -/
def Obligations.DutiesProtectTrainInUse : Prop :=
  ∀ (m m' : Monitor) (s t : State), m.trainUntil.isSome = true → m.observe s = .ok m' → step s = .next t →
    s.schedule.head? ≠ some .reset → t.tx.len = s.tx.len ∧ t.tx.buf = s.tx.buf

/-! ### The configuration record -/

/-- The machine is the build of the default record, a legal one; the record is an argument of the build's commands, bus,
step and reset, and only the two waveform commands read it (10_state.md R37, 70_reset_and_hazards.md R193; the choice of
the default record is the model's, notes/assumptions/4.md). -/
def Obligations.MachineIsTheDefaultBuild : Prop :=
  Config.built.Legal ∧ State.reset = State.resetWith Config.built ∧
  (∀ i s, exec i s = execWith Config.built i s) ∧
  (∀ a n s, busRead a n s = busReadWith Config.built a n s) ∧
  (∀ a n v s, busWrite a n v s = busWriteWith Config.built a n v s) ∧
  (∀ who op s, hostOp who op s = hostOpWith Config.built who op s) ∧
  (∀ s, step s = stepWith Config.built s) ∧
  (∀ (c : Config) (s : State),
    (∀ p n, execWith c (.waveEnc p n) s = execWaveEncWith c p n s) ∧
    execWith c .waveDec s = execWaveDecWith c s ∧
    ∀ i : Instr, (∀ p n, i ≠ .waveEnc p n) → i ≠ .waveDec → execWith c i s = exec i s)

/-- A pair with both shapes, in the build of every record: under REJECT a valid capture that holds one fails with
ERR_INV_CODE_SYM; under HIGH_FIRST `wave.dec` completes on a valid capture of which every pair has a shape, and reads
each pair with the HIGH shape, such pairs among them, as 1 (42_waveform_decoder.md R132, R137; 93_implementation_defined.md I5). -/
def Obligations.AmbiguousPairsGoByPolicy : Prop :=
  ∀ (c : Config) (s : State), frameOk c s.rx = true →
    (c.ambigPolicy = .reject →
      (∃ p ∈ dataPairs s.rx.cap, highShape c p = true ∧ lowShape c p = true) →
      execWith c .waveDec s = .next { s with rx := { s.rx with status := ⟨5, 3⟩ } }) ∧
    (c.ambigPolicy = .highFirst →
      (∀ p ∈ dataPairs s.rx.cap, highShape c p = true ∨ lowShape c p = true) →
      ∃ b : Word,
        execWith c .waveDec s = .next { s with rx :=
          { s.rx with status := ⟨0, 3⟩, bits := b, tpb := BitVec.ofNat 32 (ticksPerBit s.rx.cap) } } ∧
        (∀ i : Fin 24, b.getLsbD i = highShape c (PulsePair.ofWord s.rx.cap[i.val])) ∧ b.toNat < 2 ^ 24)
end

