-- ==== Sys2Proof/Laws/State.lean ====
section
/-! SUPPORT. The small lemmas of the state's updates: what each named update changes and what it leaves. -/

namespace Sys2Proof.Machine

@[simp] theorem Agents.get_set_same (g : Agents) (a : AgentId) (st : AgentState) : (g.set a st).get a = st := by
  cases a <;> rfl

@[simp] theorem Agents.get_set_other (g : Agents) (a b : AgentId) (st : AgentState) (h : b ≠ a) :
    (g.set a st).get b = g.get b := by
  cases a <;> cases b <;> first | rfl | exact absurd rfl h

@[simp] theorem Agents.set_get (g : Agents) (a : AgentId) : g.set a (g.get a) = g := by cases a <;> rfl

@[simp] theorem Agents.set_set (g : Agents) (a : AgentId) (st st' : AgentState) :
    (g.set a st).set a st' = g.set a st' := by cases a <;> rfl

section EndOfCommand
variable (op : BitVec 4) (e : ErrCode) (s : State)

@[simp] theorem endTx_status : (endTx op e s).tx.status = Status.ofCommand op e := rfl
@[simp] theorem endTx_bits : (endTx op e s).tx.bits = s.tx.bits := rfl
@[simp] theorem endTx_len : (endTx op e s).tx.len = s.tx.len := rfl
@[simp] theorem endTx_sym : (endTx op e s).tx.sym = s.tx.sym := rfl
@[simp] theorem endTx_buf : (endTx op e s).tx.buf = s.tx.buf := rfl
@[simp] theorem endTx_rx : (endTx op e s).rx = s.rx := rfl
@[simp] theorem endTx_agents : (endTx op e s).agents = s.agents := rfl
@[simp] theorem endTx_schedule : (endTx op e s).schedule = s.schedule := rfl
@[simp] theorem endRx_status : (endRx op e s).rx.status = Status.ofCommand op e := rfl
@[simp] theorem endRx_bits : (endRx op e s).rx.bits = s.rx.bits := rfl
@[simp] theorem endRx_tpb : (endRx op e s).rx.tpb = s.rx.tpb := rfl
@[simp] theorem endRx_sym : (endRx op e s).rx.sym = s.rx.sym := rfl
@[simp] theorem endRx_capcnt : (endRx op e s).rx.capcnt = s.rx.capcnt := rfl
@[simp] theorem endRx_cap : (endRx op e s).rx.cap = s.rx.cap := rfl
@[simp] theorem endRx_tx : (endRx op e s).tx = s.tx := rfl
@[simp] theorem endRx_agents : (endRx op e s).agents = s.agents := rfl
@[simp] theorem endRx_schedule : (endRx op e s).schedule = s.schedule := rfl

end EndOfCommand

@[simp] theorem Status.ofCommand_err (op : BitVec 4) (e : ErrCode) : (Status.ofCommand op e).err = e.code := rfl
@[simp] theorem Status.ofCommand_lastOp (op : BitVec 4) (e : ErrCode) : (Status.ofCommand op e).lastOp = op := rfl

section AgentUpdates
variable (s : State) (a : AgentId) (todo prog : List HostOp) (x : Nat) (v : Word)

@[simp] theorem withTodo_tx : (s.withTodo a todo).tx = s.tx := rfl
@[simp] theorem withTodo_rx : (s.withTodo a todo).rx = s.rx := rfl
@[simp] theorem withTodo_schedule : (s.withTodo a todo).schedule = s.schedule := rfl
@[simp] theorem withTodo_get : ((s.withTodo a todo).agents.get a).todo = todo := by simp [State.withTodo]
@[simp] theorem withTodo_prog (b : AgentId) : ((s.withTodo a todo).agents.get b).prog = (s.agents.get b).prog := by
  cases a <;> cases b <;> rfl
@[simp] theorem withTodo_vars (b : AgentId) : ((s.withTodo a todo).agents.get b).vars = (s.agents.get b).vars := by
  cases a <;> cases b <;> rfl
@[simp] theorem withVar_tx : (s.withVar a x v).tx = s.tx := rfl
@[simp] theorem withVar_rx : (s.withVar a x v).rx = s.rx := rfl
@[simp] theorem withVar_schedule : (s.withVar a x v).schedule = s.schedule := rfl
@[simp] theorem withVar_todo (b : AgentId) : ((s.withVar a x v).agents.get b).todo = (s.agents.get b).todo := by
  cases a <;> cases b <;> rfl
@[simp] theorem withVar_vars : ((s.withVar a x v).agents.get a).vars = assignVar x v (s.agents.get a).vars := by
  simp [State.withVar]
@[simp] theorem load_tx : (s.load a prog).tx = s.tx := rfl
@[simp] theorem load_rx : (s.load a prog).rx = s.rx := rfl
@[simp] theorem load_schedule : (s.load a prog).schedule = s.schedule := rfl

end AgentUpdates

section ResetOfBlock
variable (c : Config) (s : State)

@[simp] theorem resetBlock_tx : (resetBlock c s).tx = TxChannel.resetWith c := rfl
@[simp] theorem resetBlock_rx : (resetBlock c s).rx = RxChannel.reset := rfl
@[simp] theorem resetBlock_agents : (resetBlock c s).agents = s.agents := rfl
@[simp] theorem resetBlock_schedule : (resetBlock c s).schedule = s.schedule := rfl

end ResetOfBlock

section Stores
variable (s : State) (v : Word) (r : Region)

@[simp] theorem storeRegion_agents : (storeRegion s v r).agents = s.agents := by cases r <;> rfl
@[simp] theorem storeRegion_schedule : (storeRegion s v r).schedule = s.schedule := by cases r <;> rfl
@[simp] theorem storeRegion_buf : (storeRegion s v r).tx.buf = s.tx.buf := by cases r <;> rfl
@[simp] theorem storeRegion_len : (storeRegion s v r).tx.len = s.tx.len := by cases r <;> rfl
@[simp] theorem storeRegion_txStatus : (storeRegion s v r).tx.status = s.tx.status := by cases r <;> rfl
@[simp] theorem storeRegion_rxStatus : (storeRegion s v r).rx.status = s.rx.status := by cases r <;> rfl
@[simp] theorem storeRegion_tpb : (storeRegion s v r).rx.tpb = s.rx.tpb := by cases r <;> rfl
@[simp] theorem storeRegion_rxSym : (storeRegion s v r).rx.sym = s.rx.sym := by cases r <;> rfl

end Stores

/-- A variable just assigned holds the value. -/
theorem lookup_assignVar_same (x : Nat) (v : Word) (vars : List (Nat × Word)) :
    (assignVar x v vars).lookup x = some v := by
  induction vars with
  | nil => simp [assignVar]
  | cons head rest ih =>
    obtain ⟨y, w⟩ := head
    by_cases hlt : x < y
    · simp [assignVar, hlt]
    · by_cases heq : x = y
      · simp [assignVar, heq]
      · have : (x == y) = false := by simpa using heq
        simp [assignVar, hlt, heq, List.lookup_cons, this, ih]

/-- The other variables hold what they held. -/
theorem lookup_assignVar_other (x y : Nat) (v : Word) (vars : List (Nat × Word)) (h : y ≠ x) :
    (assignVar x v vars).lookup y = vars.lookup y := by
  have hyx : (y == x) = false := by simpa using h
  induction vars with
  | nil => simp [assignVar, List.lookup_cons, hyx]
  | cons head rest ih =>
    obtain ⟨z, w⟩ := head
    by_cases hlt : x < z
    · simp [assignVar, hlt, List.lookup_cons, hyx]
    · by_cases heq : x = z
      · subst heq
        simp [assignVar, List.lookup_cons, hyx]
      · simp only [assignVar, hlt, heq, if_false, List.lookup_cons, ih]

/-- Assigning a variable adds no name but its own. -/
theorem assignVar_names (x : Nat) (v : Word) (vars : List (Nat × Word)) :
    ∀ y ∈ (assignVar x v vars).map Prod.fst, y = x ∨ y ∈ vars.map Prod.fst := by
  induction vars with
  | nil => simp [assignVar]
  | cons head rest ih =>
    obtain ⟨z, w⟩ := head
    intro y hy
    by_cases hlt : x < z
    · simpa [assignVar, hlt] using hy
    · by_cases heq : x = z
      · have hz : ¬z < z := Nat.lt_irrefl z
        simp only [assignVar, heq, hz, if_false, if_true, List.map_cons, List.mem_cons] at hy ⊢
        tauto
      · simp only [assignVar, hlt, heq, if_false, List.map_cons, List.mem_cons] at hy ⊢
        rcases hy with rfl | hy
        · exact .inr (.inl rfl)
        · exact (ih y hy).imp id .inr

/-- Assigning a variable keeps the names strictly rising. -/
theorem assignVar_rising (x : Nat) (v : Word) (vars : List (Nat × Word))
    (h : (vars.map Prod.fst).Pairwise (· < ·)) : ((assignVar x v vars).map Prod.fst).Pairwise (· < ·) := by
  induction vars with
  | nil => simp [assignVar]
  | cons head rest ih =>
    obtain ⟨z, w⟩ := head
    simp only [List.map_cons, List.pairwise_cons] at h
    by_cases hlt : x < z
    · simp only [assignVar, hlt, if_true, List.map_cons, List.pairwise_cons, List.mem_cons]
      refine ⟨?_, h.1, h.2⟩
      rintro y (rfl | hy)
      · exact hlt
      · exact hlt.trans (h.1 y hy)
    · by_cases heq : x = z
      · have hz : ¬z < z := Nat.lt_irrefl z
        simpa only [assignVar, heq, hz, if_false, if_true, List.map_cons, List.pairwise_cons] using h
      · simp only [assignVar, hlt, heq, if_false, List.map_cons, List.pairwise_cons]
        refine ⟨fun y hy => ?_, ih h.2⟩
        rcases assignVar_names x v rest y hy with rfl | hy'
        · omega
        · exact h.1 y hy'

end Sys2Proof.Machine
end

