-- ==== Sys2Proof/Laws/Bus.lean ====
section
/-! SUPPORT. The spec lemmas of the bus: where each address leads, and everything a bus access can do. -/

namespace Sys2Proof.Machine

/-! ### The address map -/

/-- CAP[k] stands at 0x080 + 4k (20_memory.md R51). -/
theorem regionOf_cap (depth : Nat) (k : Fin 25) : regionOf depth (capBase + 4 * k.val) = .cap k := by
  fin_cases k <;> rfl

/-- The named registers stand below the transmit buffer. -/
theorem registerMap_lookup_txbuf (a : Nat) (h : txbufBase ≤ a) : registerMap.lookup a = none := by
  have hne : ∀ b : Nat, b < 0x1000 → (a == b) = false := fun b hb => by
    simp only [beq_eq_false_iff_ne, txbufBase] at *; omega
  simp [registerMap, List.lookup_cons, hne 0, hne]

/-- TXBUF[k] stands at 0x1000 + 4k for every k below the depth (20_memory.md R51). -/
theorem regionOf_txbuf (depth k : Nat) (h : k < depth) : regionOf depth (txbufBase + 4 * k) = .txbuf k := by
  have hcap : ¬(capBase ≤ txbufBase + 4 * k ∧ txbufBase + 4 * k < capBase + 100) := by
    simp only [capBase, txbufBase]; omega
  have hbuf : txbufBase ≤ txbufBase + 4 * k ∧ txbufBase + 4 * k < txbufBase + 4 * depth := by omega
  have hk : (txbufBase + 4 * k - txbufBase) / 4 = k := by omega
  simp only [regionOf, registerMap_lookup_txbuf _ (Nat.le_add_right _ _), dif_neg hcap, if_pos hbuf, hk]

/-- An address beyond the transmit buffer is reserved (20_memory.md R51). -/
theorem regionOf_beyond (depth a : Nat) (h : txbufBase + 4 * depth ≤ a) : regionOf depth a = .reserved := by
  have hcap : ¬(capBase ≤ a ∧ a < capBase + 100) := by
    simp only [capBase, txbufBase] at *; omega
  have hbuf : ¬(txbufBase ≤ a ∧ a < txbufBase + 4 * depth) := by omega
  simp only [regionOf, registerMap_lookup_txbuf _ (by omega : txbufBase ≤ a), dif_neg hcap, if_neg hbuf]

/-- The byte address of a region (20_memory.md R51); reserved addresses have no single one. -/
def Region.address : Region → Nat
  | .txCmd => 0x000
  | .txStatus => 0x004
  | .txBits => 0x008
  | .txLen => 0x00C
  | .txSym0 => 0x010
  | .txSym1 => 0x014
  | .txSym2 => 0x018
  | .rxCmd => 0x040
  | .rxStatus => 0x044
  | .rxBits => 0x048
  | .rxTpb => 0x04C
  | .rxSym0 => 0x050
  | .rxSym1 => 0x054
  | .rxSym2 => 0x058
  | .rxCapcnt => 0x05C
  | .cap k => capBase + 4 * k.val
  | .txbuf k => txbufBase + 4 * k
  | .reserved => 0xFFFC

theorem registerMap_lookup_address (a : Nat) (r : Region) (h : registerMap.lookup a = some r) : a = r.address := by
  simp only [registerMap, List.lookup_cons] at h
  repeat' split at h
  all_goals first
    | (rename_i hb; cases h; simpa [Region.address] using hb)
    | exact nomatch h

/-- An aligned address that is not reserved is the address of its region, so the map sends no two of them to one
place. -/
theorem regionOf_address (depth a : Nat) (ha : a % 4 = 0) (hr : regionOf depth a ≠ .reserved) :
    a = (regionOf depth a).address := by
  unfold regionOf at hr ⊢
  split
  · rename_i r h
    exact registerMap_lookup_address a r h
  · split
    · rename_i h1 h2
      simp only [Region.address, capBase] at h2 ⊢
      omega
    · split
      · rename_i h1 h2 h3
        simp only [Region.address, txbufBase] at h3 ⊢
        omega
      · rename_i h0 h1 h2
        rw [h0] at hr
        simp [h1, h2] at hr

/-- Two aligned addresses of one region are one address, reserved addresses apart. -/
theorem region_injective (c : Config) (a b : Addr) (ha : a.toNat % 4 = 0) (hb : b.toNat % 4 = 0)
    (h : region c a = region c b) (hr : region c a ≠ .reserved) : a = b := by
  have e1 := regionOf_address c.txDepth a.toNat ha hr
  have e2 := regionOf_address c.txDepth b.toNat hb (fun e => hr (h.trans e))
  exact BitVec.eq_of_toNat_eq (e1.trans ((congrArg Region.address h).trans e2.symm))

/-- A register read after a store to another region is as before (20_memory.md R56). -/
theorem readRegion_store_other (s : State) (v : Word) (r r' : Region) (h : r' ≠ r) :
    readRegion (storeRegion s v r) r' = readRegion s r' := by
  cases r <;> cases r' <;> first
    | rfl
    | exact absurd rfl h
    | (rename_i k k'
       have hk : k'.val ≠ k.val := fun e => h (by rw [Fin.ext e])
       simp [readRegion, storeRegion, hk.symm])

/-! ### Accesses -/

theorem accessRefusal_eq_none_iff (addr : Addr) (size : Nat) :
    accessRefusal addr size = none ↔ size = 4 ∧ addr.toNat % 4 = 0 := by
  unfold accessRefusal
  by_cases h1 : size = 4 <;> by_cases h2 : addr.toNat % 4 = 0 <;> simp [h1, h2]

/-- The commands of the machine are those of its build. -/
@[simp] theorem execWith_built (i : Instr) (s : State) : execWith Config.built i s = exec i s := by cases i <;> rfl

/-- A read of an aligned word, in the build of any record (20_memory.md R55). -/
theorem busReadWith_aligned (c : Config) (addr : Addr) (s : State) (h : addr.toNat % 4 = 0) :
    busReadWith c addr 4 s = .ok (readRegion s (region c addr)) := by
  simp only [busReadWith, (accessRefusal_eq_none_iff addr 4).2 ⟨rfl, h⟩, memRead]

/-- Everything a bus write can do in the build of any record: it is refused, or it runs the command the word encodes on
its register, or it stores to the region at the address (20_memory.md R54, R56). -/
theorem busWriteWith_cases (c : Config) (addr : Addr) (size : Nat) (v : Word) (s : State) :
    (∃ r, accessRefusal addr size = some r ∧ busWriteWith c addr size v s = .refused r) ∨
    (accessRefusal addr size = none ∧ region c addr = .txCmd ∧
      busWriteWith c addr size v s = execWith c (decode .tx v) s) ∨
    (accessRefusal addr size = none ∧ region c addr = .rxCmd ∧
      busWriteWith c addr size v s = execWith c (decode .rx v) s) ∨
    (accessRefusal addr size = none ∧ region c addr ≠ .txCmd ∧ region c addr ≠ .rxCmd ∧
      busWriteWith c addr size v s = .next (storeRegion s v (region c addr))) := by
  cases hr : accessRefusal addr size with
  | some r => exact .inl ⟨r, rfl, by simp [busWriteWith, hr]⟩
  | none =>
    refine .inr ?_
    simp only [busWriteWith, hr, memWrite]
    cases hreg : region c addr <;> simp

/-- `busWriteWith_cases` for the machine. -/
theorem busWrite_cases (addr : Addr) (size : Nat) (v : Word) (s : State) :
    (∃ r, accessRefusal addr size = some r ∧ busWrite addr size v s = .refused r) ∨
    (accessRefusal addr size = none ∧ region Config.built addr = .txCmd ∧
      busWrite addr size v s = exec (decode .tx v) s) ∨
    (accessRefusal addr size = none ∧ region Config.built addr = .rxCmd ∧
      busWrite addr size v s = exec (decode .rx v) s) ∨
    (accessRefusal addr size = none ∧ region Config.built addr ≠ .txCmd ∧ region Config.built addr ≠ .rxCmd ∧
      busWrite addr size v s = .next (storeRegion s v (region Config.built addr))) := by
  simpa only [busWrite, execWith_built] using busWriteWith_cases Config.built addr size v s

end Sys2Proof.Machine
end

