-- ==== Sys2Proof/Laws/Operands.lean ====
section
/-! SUPPORT. The spec lemmas of the operand forms: bits of a pattern, words of pulse pairs, symbols of registers,
buffers written from the front. -/

namespace Sys2Proof.Machine

/-! ### Bits of a pattern -/

theorem natOfBits_testBit (bits : List Bool) (i : Nat) : (natOfBits bits).testBit i = bits.getD i false := by
  induction bits generalizing i with
  | nil => simp [natOfBits]
  | cons b rest ih =>
    cases i with
    | zero => cases b <;> simp [natOfBits, Nat.testBit_zero]
    | succ i =>
      have h : (b.toNat + 2 * natOfBits rest) / 2 = natOfBits rest := by cases b <;> (simp; try omega)
      simp [natOfBits, Nat.testBit_succ, h, ih]

theorem natOfBits_lt (bits : List Bool) : natOfBits bits < 2 ^ bits.length := by
  induction bits with
  | nil => simp [natOfBits]
  | cons b rest ih =>
    have : b.toNat ≤ 1 := by cases b <;> simp
    simp only [natOfBits, List.length_cons, Nat.pow_succ]
    omega

/-- Bit i of a pattern is entry i of its bits. -/
theorem wordOfBits_getLsbD (bits : List Bool) (i : Nat) :
    (wordOfBits bits).getLsbD i = (decide (i < 32) && bits.getD i false) := by
  simp [wordOfBits, BitVec.getLsbD_ofNat, natOfBits_testBit]

/-! ### Values of a list when none is missing -/

/-- `allSome` answers a list exactly when every entry is a value, and then answers those values. -/
theorem allSome_eq_some_iff {α : Type} (l : List (Option α)) (out : List α) :
    allSome l = some out ↔ l = out.map some := by
  induction l generalizing out with
  | nil => cases out <;> simp [allSome]
  | cons o rest ih =>
    cases o with
    | none => cases out <;> simp [allSome]
    | some a =>
      cases out with
      | nil => simp [allSome]
      | cons b out => simp [allSome, ih, and_comm]

theorem allSome_eq_none_iff {α : Type} (l : List (Option α)) : allSome l = none ↔ none ∈ l := by
  induction l with
  | nil => simp [allSome]
  | cons o rest ih => cases o <;> simp [allSome, ih]

theorem allSome_map_some {α : Type} (l : List α) : allSome (l.map some) = some l :=
  (allSome_eq_some_iff _ _).2 rfl

theorem allSome_length {α : Type} {l : List (Option α)} {out : List α} (h : allSome l = some out) :
    out.length = l.length := by
  rw [(allSome_eq_some_iff l out).1 h, List.length_map]

/-! ### Pulse pairs in words -/

/-- `pair(word(a, d)) = (a, d)` (30_encoding.md R74). -/
@[simp] theorem ofWord_toWord (p : PulsePair) : PulsePair.ofWord p.toWord = p := by
  obtain ⟨a, d⟩ := p
  simp only [PulsePair.ofWord, PulsePair.toWord, PulsePair.mk.injEq]
  constructor <;> ext i hi
  · have h : i < 32 := by omega
    simp [h, hi]
  · have h : 16 + i < 32 := by omega
    simp [h, hi, BitVec.getLsbD_eq_getElem]

/-- `word(pair(w)) = w` (30_encoding.md R74). -/
@[simp] theorem toWord_ofWord (w : Word) : (PulsePair.ofWord w).toWord = w := by
  simp only [PulsePair.ofWord, PulsePair.toWord]
  ext i hi
  by_cases h : i < 16
  · simp [h, hi, BitVec.getLsbD_eq_getElem]
  · have h1 : i - 16 < 16 := by omega
    have h2 : 16 + (i - 16) = i := by omega
    simp [h, h1, h2, hi, BitVec.getLsbD_eq_getElem]

/-! ### Symbols in registers -/

@[simp] theorem lanes_ofLanes (b0 b1 b2 b3 : Byte) : lanes (ofLanes b0 b1 b2 b3) = [b0, b1, b2, b3] := by
  simp only [lanes, ofLanes, List.cons.injEq, and_true]
  refine ⟨?_, ?_, ?_, ?_⟩ <;> ext i hi <;> interval_cases i <;> simp

@[simp] theorem symbols_length (r : SymRegs) : r.symbols.length = 12 := rfl

/-- Twelve symbols packed into the registers are read back (10_state.md R25). -/
theorem symbols_ofSymbols (l : List Byte) (h : l.length = 12) : (SymRegs.ofSymbols l).symbols = l := by
  match l, h with
  | [c0, c1, c2, c3, c4, c5, c6, c7, c8, c9, c10, c11], _ => simp [SymRegs.symbols, SymRegs.ofSymbols]

/-! ### Buffers written from the front -/

@[simp] theorem overlay_length (news olds : List Word) : (overlay news olds).length = olds.length := by
  induction news generalizing olds with
  | nil => simp [overlay]
  | cons n news ih => cases olds <;> simp [overlay, ih]

theorem overlay_take (news olds : List Word) (h : news.length ≤ olds.length) :
    (overlay news olds).take news.length = news := by
  induction news generalizing olds with
  | nil => simp
  | cons n news ih =>
    cases olds with
    | nil => simp at h
    | cons o olds => simp [overlay, ih olds (by simpa using h)]

theorem overlay_drop (news olds : List Word) : (overlay news olds).drop news.length = olds.drop news.length := by
  induction news generalizing olds with
  | nil => simp [overlay]
  | cons n news ih => cases olds <;> simp [overlay, ih]

/-- An entry of a buffer written from the front: new below the new length, old from there on (10_state.md R27). -/
theorem overlay_getD (news olds : List Word) (k : Nat) (h : news.length ≤ olds.length) :
    (overlay news olds).getD k 0 = if k < news.length then news.getD k 0 else olds.getD k 0 := by
  induction news generalizing olds k with
  | nil => simp [overlay]
  | cons n news ih =>
    cases olds with
    | nil => simp at h
    | cons o olds =>
      cases k with
      | zero => simp [overlay]
      | succ k => simpa [overlay] using ih olds k (by simpa using h)

/-! ### The capture -/

@[simp] theorem dataPairs_length (cap : Vector Word 25) : (dataPairs cap).length = 24 := by
  simp [dataPairs, Config.nBits]

/-- Data pair i is the pair in CAP[i] (42_waveform_decoder.md R140). -/
theorem dataPairs_getElem (cap : Vector Word 25) (i : Nat) (h : i < 24) :
    (dataPairs cap)[i]'(by simpa using h) = PulsePair.ofWord cap[i] := by
  simp [dataPairs]

end Sys2Proof.Machine
end

