-- ==== Sys2Proof/Laws/Codec.lean ====
section
/-! SUPPORT. The spec lemmas of the codecs' parts: symbols and pairs (40_symbol_codec.md), frames and trains
(41_waveform_encoder.md), captures of the ideal channel (42_waveform_decoder.md). -/

namespace Sys2Proof.Machine

/-! ### Symbols and pairs -/

/-- The symbol in a byte lane is the entry of the symbols' list (10_state.md R25). -/
theorem symbolByte_eq_getD (r : SymRegs) (j : Nat) (h : j < 12) : symbolByte r j = r.symbols.getD j 0 := by
  have lane : ∀ w : Word, (w >>> 0).setWidth 8 = w.extractLsb' 0 8 ∧ (w >>> 8).setWidth 8 = w.extractLsb' 8 8 ∧
      (w >>> 16).setWidth 8 = w.extractLsb' 16 8 ∧ (w >>> 24).setWidth 8 = w.extractLsb' 24 8 := by
    intro w
    refine ⟨?_, ?_, ?_, ?_⟩ <;> ext i hi <;> simp
  match j, h with
  | 0, _ => exact (lane r.sym0).1
  | 1, _ => exact (lane r.sym0).2.1
  | 2, _ => exact (lane r.sym0).2.2.1
  | 3, _ => exact (lane r.sym0).2.2.2
  | 4, _ => exact (lane r.sym1).1
  | 5, _ => exact (lane r.sym1).2.1
  | 6, _ => exact (lane r.sym1).2.2.1
  | 7, _ => exact (lane r.sym1).2.2.2
  | 8, _ => exact (lane r.sym2).1
  | 9, _ => exact (lane r.sym2).2.1
  | 10, _ => exact (lane r.sym2).2.2.1
  | 11, _ => exact (lane r.sym2).2.2.2

/-- The symbols of a code are its twelve byte lanes in order (10_state.md R25). -/
theorem symbols_eq_map_symbolByte (r : SymRegs) : r.symbols = (List.range 12).map (symbolByte r) := by
  apply List.ext_getElem
  · simp
  · intro j h1 h2
    have hj : j < 12 := by simpa using h1
    rw [List.getElem_map, List.getElem_range, symbolByte_eq_getD r j hj, List.getD_eq_getElem?_getD,
      List.getElem?_eq_getElem h1]
    rfl

@[simp] theorem bitsOfPairs_length (l : List (Bool × Bool)) : (bitsOfPairs l).length = 2 * l.length := by
  induction l with
  | nil => rfl
  | cons p l ih =>
    obtain ⟨hi, lo⟩ := p
    simp only [bitsOfPairs, List.length_cons, ih]
    omega

/-- Bit 2j of the pairs' bits is the low-order bit of pair j, bit 2j + 1 the high-order bit (40_symbol_codec.md R90). -/
theorem bitsOfPairs_getD (l : List (Bool × Bool)) (j : Nat) :
    (bitsOfPairs l).getD (2 * j) false = (l.getD j (false, false)).2 ∧
    (bitsOfPairs l).getD (2 * j + 1) false = (l.getD j (false, false)).1 := by
  induction l generalizing j with
  | nil => simp [bitsOfPairs]
  | cons p l ih =>
    obtain ⟨hi, lo⟩ := p
    cases j with
    | zero => simp [bitsOfPairs]
    | succ j => simpa [bitsOfPairs, Nat.mul_add] using ih j

/-! ### Frames and trains -/

@[simp] theorem frame_length (b : Word) (p : Profile) : (frame b p).length = 25 := by simp [frame]

@[simp] theorem train_length (b : Word) (n : Nat) (p : Profile) : (train b n p).length = 25 * n := by
  simp [train, Nat.mul_comm]

/-- Element 25·r + e of a train is element e of the frame (41_waveform_encoder.md R112). -/
theorem train_getElem? (b : Word) (n : Nat) (p : Profile) (r e : Nat) (hr : r < n) (he : e < 25) :
    (train b n p)[25 * r + e]? = (frame b p)[e]? := by
  unfold train
  induction n generalizing r with
  | zero => omega
  | succ n ih =>
    rw [List.replicate_succ, List.flatten_cons]
    cases r with
    | zero => simp [List.getElem?_append, he]
    | succ r =>
      have hsub : 25 * (r + 1) + e - (frame b p).length = 25 * r + e := by rw [frame_length]; omega
      rw [List.getElem?_append_right (by rw [frame_length]; omega), hsub]
      exact ih r (by omega)

theorem frame_getElem?_sync (b : Word) (p : Profile) : (frame b p)[0]? = some p.sync := rfl

/-- Element 1 + i of a frame is the pulse of bit i (41_waveform_encoder.md R111). -/
theorem frame_getElem?_bit (b : Word) (p : Profile) (i : Nat) (h : i < 24) :
    (frame b p)[1 + i]? = some (if b.getLsbD i then p.high else p.low) := by
  simp [frame, Nat.add_comm 1 i, h]

/-- A train depends on bits 23:0 of the pattern only (41_waveform_encoder.md R111). -/
theorem train_congr (b b' : Word) (n : Nat) (p : Profile) (h : b.setWidth 24 = b'.setWidth 24) :
    train b n p = train b' n p := by
  have hf : frame b p = frame b' p := by
    unfold frame
    refine congrArg _ (List.map_congr_left fun i hi => ?_)
    have hi : i < 24 := List.mem_range.1 hi
    have e := congrArg (fun v : BitVec 24 => v.getLsbD i) h
    simp only [BitVec.getLsbD_setWidth, hi, decide_true, Bool.true_and] at e
    rw [e]
  unfold train
  rw [hf]

/-! ### Captures -/

/-- A capture of the ideal channel has 25 pairs (42_waveform_decoder.md R141). -/
theorem idealCapture_length (t : List PulsePair) (k : Nat) (h : 25 * k + 25 ≤ t.length) :
    (idealCapture t k).length = 25 := by
  simp only [idealCapture, List.length_append, List.length_take, List.length_drop, List.length_cons, List.length_nil,
    Config.nBits, Config.framePairs]
  omega

/-- A captured train in CAP, pair by pair (10_state.md R34). -/
theorem withCapture_cap (rx : RxChannel) (pairs : List PulsePair) (i : Nat) (h : i < 25) (hp : i < pairs.length) :
    PulsePair.ofWord ((rx.withCapture pairs).cap[i]) = pairs[i] := by
  simp [RxChannel.withCapture, hp]

end Sys2Proof.Machine
end

