-- ==== Sys2Proof/Laws/Exec.lean ====
section
/-! SUPPORT. Everything each command can do, said once: one inversion lemma a meaning. Each command answers a next
state, in which the other channel, the agents and the schedule are as before. -/

namespace Sys2Proof.Machine

/-- `tri.enc` ends with ERR_INV_CODE_SYM and writes only TX_STATUS, or with OK and writes TX_BITS too. -/
theorem execTriEnc_cases (s : State) :
    (triEncode s.tx.sym = .error .invCodeSym ∧ execTriEnc s = .next (endTx 0x1 .invCodeSym s)) ∨
    (∃ b, triEncode s.tx.sym = .ok b ∧
      execTriEnc s = .next (endTx 0x1 .ok { s with tx := { s.tx with bits := b } })) := by
  unfold execTriEnc triEncode
  cases allSome (s.tx.sym.symbols.map symToPair) with
  | none => exact .inl ⟨rfl, rfl⟩
  | some pairs => exact .inr ⟨_, rfl, rfl⟩

/-- `tri.dec` ends with ERR_INV_CODE_SYM and writes only RX_STATUS, or with OK and writes RX_SYM too. -/
theorem execTriDec_cases (s : State) :
    (triDecode s.rx.bits = .error .invCodeSym ∧ execTriDec s = .next (endRx 0x4 .invCodeSym s)) ∨
    (∃ r, triDecode s.rx.bits = .ok r ∧
      execTriDec s = .next (endRx 0x4 .ok { s with rx := { s.rx with sym := r } })) := by
  unfold execTriDec triDecode
  cases allSome ((List.range Config.nSym).map fun j => pairToSym (pairOf s.rx.bits j)) with
  | none => exact .inl ⟨rfl, rfl⟩
  | some syms => exact .inr ⟨_, rfl, rfl⟩

/-- What `wave.enc` computes: the protocol check first, then the capacity check, else the train
(60_exceptions.md R166). -/
theorem waveEncode_cases (c : Config) (psel : BitVec 2) (rep : BitVec 8) (b : Word) :
    (profileOf c psel = none ∧ waveEncode c psel rep b = .error .invProtocol) ∨
    (∃ p, profileOf c psel = some p ∧
      ((c.txDepth < Config.framePairs * rep.toNat ∧ waveEncode c psel rep b = .error .noMem) ∨
       (Config.framePairs * rep.toNat ≤ c.txDepth ∧ waveEncode c psel rep b = .ok (train b rep.toNat p)))) := by
  unfold waveEncode
  cases profileOf c psel with
  | none => exact .inl ⟨rfl, rfl⟩
  | some p =>
    refine .inr ⟨p, rfl, ?_⟩
    by_cases h : Config.framePairs * rep.toNat > c.txDepth
    · exact .inl ⟨h, if_pos h⟩
    · exact .inr ⟨Nat.le_of_not_lt h, if_neg h⟩

/-- `wave.enc` ends with an error and writes TX_LEN = 0, or with OK and writes TXBUF and TX_LEN. -/
theorem execWaveEncWith_cases (c : Config) (psel : BitVec 2) (rep : BitVec 8) (s : State) :
    (∃ e, (e = .invProtocol ∨ e = .noMem) ∧ waveEncode c psel rep s.tx.bits = .error e ∧
      execWaveEncWith c psel rep s = .next (endTx 0x2 e { s with tx := { s.tx with len := 0 } })) ∨
    (∃ p, profileOf c psel = some p ∧ Config.framePairs * rep.toNat ≤ c.txDepth ∧
      execWaveEncWith c psel rep s = .next (endTx 0x2 .ok { s with tx :=
        { s.tx with
          buf := overlay ((train s.tx.bits rep.toNat p).map PulsePair.toWord) s.tx.buf
          len := BitVec.ofNat 16 (Config.framePairs * rep.toNat) } })) := by
  rcases waveEncode_cases c psel rep s.tx.bits with ⟨-, h⟩ | ⟨p, hp, ⟨-, h⟩ | ⟨hle, h⟩⟩
  · exact .inl ⟨_, .inl rfl, h, by simp [execWaveEncWith, h, raiseTx]⟩
  · exact .inl ⟨_, .inr rfl, h, by simp [execWaveEncWith, h, raiseTx]⟩
  · exact .inr ⟨p, hp, hle, by simp [execWaveEncWith, h]⟩

/-- What `wave.dec` computes: the frame check first, then the pairs, else pattern and ticks per bit
(42_waveform_decoder.md R138). -/
theorem waveDecode_cases (c : Config) (rx : RxChannel) :
    (frameOk c rx = false ∧ waveDecode c rx = .error .invFrame) ∨
    (frameOk c rx = true ∧
      ((none ∈ (dataPairs rx.cap).map (classify c) ∧ waveDecode c rx = .error .invCodeSym) ∨
       (∃ bits, (dataPairs rx.cap).map (classify c) = bits.map some ∧
        waveDecode c rx = .ok (wordOfBits bits, BitVec.ofNat 32 (ticksPerBit rx.cap))))) := by
  unfold waveDecode
  cases hf : frameOk c rx with
  | false => exact .inl ⟨rfl, rfl⟩
  | true =>
    refine .inr ⟨rfl, ?_⟩
    simp only [Bool.not_true, Bool.false_eq_true, if_false]
    cases ha : allSome ((dataPairs rx.cap).map (classify c)) with
    | none => exact .inl ⟨(allSome_eq_none_iff _).1 ha, rfl⟩
    | some bits => exact .inr ⟨bits, (allSome_eq_some_iff _ _).1 ha, rfl⟩

/-- `wave.dec` ends with an error and writes only RX_STATUS, or with OK and writes RX_BITS and RX_TPB too. -/
theorem execWaveDecWith_cases (c : Config) (s : State) :
    (∃ e, (e = .invFrame ∨ e = .invCodeSym) ∧ waveDecode c s.rx = .error e ∧
      execWaveDecWith c s = .next (endRx 0x3 e s)) ∨
    (∃ bits, (dataPairs s.rx.cap).map (classify c) = bits.map some ∧ frameOk c s.rx = true ∧
      execWaveDecWith c s = .next (endRx 0x3 .ok { s with rx :=
        { s.rx with bits := wordOfBits bits, tpb := BitVec.ofNat 32 (ticksPerBit s.rx.cap) } })) := by
  rcases waveDecode_cases c s.rx with ⟨-, h⟩ | ⟨hf, ⟨-, h⟩ | ⟨bits, hb, h⟩⟩
  · exact .inl ⟨_, .inl rfl, h, by simp [execWaveDecWith, h, raiseRx]⟩
  · exact .inl ⟨_, .inr rfl, h, by simp [execWaveDecWith, h, raiseRx]⟩
  · exact .inr ⟨bits, hb, hf, by simp [execWaveDecWith, h]⟩

/-- What every command does, whatever it is and whatever the record: it answers a next state with the agents and the
schedule as they were, and the channel of the other register untouched. -/
theorem execWith_next (c : Config) (i : Instr) (s : State) :
    ∃ t, execWith c i s = .next t ∧ t.agents = s.agents ∧ t.schedule = s.schedule ∧
      (i.cmdReg = .tx → t.rx = s.rx) ∧ (i.cmdReg = .rx → t.tx = s.tx) := by
  cases i with
  | triEnc =>
    rcases execTriEnc_cases s with ⟨-, h⟩ | ⟨b, -, h⟩ <;>
      exact ⟨_, h, rfl, rfl, fun _ => rfl, fun h => nomatch h⟩
  | waveEnc psel rep =>
    rcases execWaveEncWith_cases c psel rep s with ⟨e, -, -, h⟩ | ⟨p, -, -, h⟩ <;>
      exact ⟨_, h, rfl, rfl, fun _ => rfl, fun h => nomatch h⟩
  | waveDec =>
    rcases execWaveDecWith_cases c s with ⟨e, -, -, h⟩ | ⟨b, -, -, h⟩ <;>
      exact ⟨_, h, rfl, rfl, (fun h => nomatch h), fun _ => rfl⟩
  | triDec =>
    rcases execTriDec_cases s with ⟨-, h⟩ | ⟨b, -, h⟩ <;>
      exact ⟨_, h, rfl, rfl, (fun h => nomatch h), fun _ => rfl⟩
  | reservedTx op => exact ⟨_, rfl, rfl, rfl, fun _ => rfl, fun h => nomatch h⟩
  | reservedRx op => exact ⟨_, rfl, rfl, rfl, (fun h => nomatch h), fun _ => rfl⟩

/-- `execWith_next` for the machine. -/
theorem exec_next (i : Instr) (s : State) :
    ∃ t, exec i s = .next t ∧ t.agents = s.agents ∧ t.schedule = s.schedule ∧
      (i.cmdReg = .tx → t.rx = s.rx) ∧ (i.cmdReg = .rx → t.tx = s.tx) := by
  simpa only [execWith_built] using execWith_next Config.built i s

end Sys2Proof.Machine
end

