-- ==== Sys2Proof/Laws/Memory.lean ====
section
/-! SUPPORT. Every operation keeps TXBUF whole (10_state.md R27), and reset has it whole. -/

namespace Sys2Proof.Machine

theorem resetWith_memory_wf (c : Config) : Memory.wfWith c (State.resetWith c) := List.length_replicate

theorem reset_memory_wf : Memory.wf State.reset := resetWith_memory_wf Config.built

theorem resetBlock_memory_wf (c : Config) (s : State) : Memory.wfWith c (resetBlock c s) := resetWith_memory_wf c

theorem storeRegion_memory_wf (c : Config) (s : State) (v : Word) (r : Region) (h : Memory.wfWith c s) :
    Memory.wfWith c (storeRegion s v r) := by simpa [Memory.wfWith] using h

theorem execWith_keeps_buffer_length (c : Config) (i : Instr) (s t : State) (h : execWith c i s = .next t) :
    t.tx.buf.length = s.tx.buf.length := by
  cases i with
  | triEnc => rcases execTriEnc_cases s with ⟨-, e⟩ | ⟨b, -, e⟩ <;> cases e.symm.trans h <;> rfl
  | waveEnc psel rep =>
    rcases execWaveEncWith_cases c psel rep s with ⟨x, -, -, e⟩ | ⟨p, -, -, e⟩ <;>
      cases e.symm.trans h <;> simp
  | waveDec => rcases execWaveDecWith_cases c s with ⟨x, -, -, e⟩ | ⟨b, -, -, e⟩ <;> cases e.symm.trans h <;> rfl
  | triDec => rcases execTriDec_cases s with ⟨-, e⟩ | ⟨b, -, e⟩ <;> cases e.symm.trans h <;> rfl
  | reservedTx op => cases h; rfl
  | reservedRx op => cases h; rfl

theorem execWith_memory_wf (c : Config) (i : Instr) (s t : State) (h : execWith c i s = .next t)
    (hs : Memory.wfWith c s) : Memory.wfWith c t :=
  (execWith_keeps_buffer_length c i s t h).trans hs

theorem busWriteWith_memory_wf (c : Config) (addr : Addr) (size : Nat) (v : Word) (s t : State)
    (h : busWriteWith c addr size v s = .next t) (hs : Memory.wfWith c s) : Memory.wfWith c t := by
  rcases busWriteWith_cases c addr size v s with ⟨r, -, e⟩ | ⟨-, -, e⟩ | ⟨-, -, e⟩ | ⟨-, -, -, e⟩
  · exact nomatch e.symm.trans h
  · exact execWith_memory_wf c _ s t (e.symm.trans h) hs
  · exact execWith_memory_wf c _ s t (e.symm.trans h) hs
  · cases e.symm.trans h; exact storeRegion_memory_wf c s v _ hs

end Sys2Proof.Machine
end

