-- ==== Sys2Proof/Laws/PerInstr.lean ====
section
/-! SUPPORT. Facts about every instruction as syntax, one lemma a constructor. -/

namespace Sys2Proof.Laws

namespace ReservedBitsClear

/-- The encoder leaves the reserved bits cmd[7:6] and cmd[31:16] clear (30_encoding.md R70, R78). -/
def Statement (i : Instr) : Prop := encode i &&& 0xFFFF00C0 = 0

theorem triEnc : Statement .triEnc := rfl

theorem waveEnc (psel : BitVec 2) (rep : BitVec 8) : Statement (.waveEnc psel rep) := by
  unfold Statement encode commandWord
  revert rep psel
  decide

theorem waveDec : Statement .waveDec := rfl

theorem triDec : Statement .triDec := rfl

theorem reservedTx (op : BitVec 4) : Statement (.reservedTx op) := by
  unfold Statement encode commandWord
  revert op
  decide

theorem reservedRx (op : BitVec 4) : Statement (.reservedRx op) := by
  unfold Statement encode commandWord
  revert op
  decide

end ReservedBitsClear

end Sys2Proof.Laws
end

