-- ==== Sys2Proof/Laws/Step.lean ====
section
/-! SUPPORT. Everything a step can do, said once, and which bus access it serves. -/

namespace Sys2Proof.Machine

/-- An agent's jump changes only what it has still to do. -/
theorem jumpTo_cases (a : AgentId) (l : Nat) (s t : State) (h : jumpTo a l s = .next t) :
    ∃ todo, t = s.withTodo a todo := by
  unfold jumpTo at h
  split at h
  · exact nomatch h
  · cases h; exact ⟨_, rfl⟩

/-- An agent's bus write that completes is one aligned word of the bus. -/
theorem agentWrite_next (c : Config) (addr size : Nat) (v : Word) (s t : State)
    (h : agentWrite c addr size v s = .next t) :
    addr < 2 ^ 16 ∧ size = 4 ∧ accessRefusal (BitVec.ofNat 16 addr) 4 = none ∧
      busWriteWith c (BitVec.ofNat 16 addr) 4 v s = .next t := by
  unfold agentWrite at h
  split at h
  case isFalse => exact nomatch h
  case isTrue hlt =>
    have hal : accessRefusal (BitVec.ofNat 16 addr) size = none := by
      rcases busWriteWith_cases c (BitVec.ofNat 16 addr) size v s with ⟨r, -, e⟩ | ⟨hal, -⟩ | ⟨hal, -⟩ | ⟨hal, -⟩
      · exact nomatch e.symm.trans h
      all_goals exact hal
    have hs := ((accessRefusal_eq_none_iff _ _).1 hal).1
    subst hs
    exact ⟨hlt, rfl, hal, h⟩

/-- An agent's bus read that completes assigns the word read to one variable of the agent. -/
theorem agentReadWith_next (c : Config) (a : AgentId) (addr size x : Nat) (s t : State)
    (h : agentReadWith c a addr size x s = .next t) :
    addr < 2 ^ 16 ∧ ∃ v, busReadWith c (BitVec.ofNat 16 addr) size s = .ok v ∧ t = s.withVar a x v := by
  unfold agentReadWith at h
  split at h
  case isFalse => exact nomatch h
  case isTrue hlt =>
    split at h
    · exact nomatch h
    · rename_i v hv
      cases h
      exact ⟨hlt, v, hv, rfl⟩

/-- What an operation other than a bus write does: it moves the agent in its program, or assigns one variable. -/
theorem hostOpWith_cases (c : Config) (a : AgentId) (op : HostOp) (s t : State) (h : hostOpWith c a op s = .next t) :
    (∃ reg value, op = .wr reg 4 value ∧ reg.address (s.varsOf a) < 2 ^ 16 ∧
      accessRefusal (BitVec.ofNat 16 (reg.address (s.varsOf a))) 4 = none ∧
      busWriteWith c (BitVec.ofNat 16 (reg.address (s.varsOf a))) 4 (value.eval (s.varsOf a)) s = .next t) ∨
    ((∀ reg size value, op ≠ .wr reg size value) ∧
      (t = s ∨ (∃ todo, t = s.withTodo a todo) ∨ ∃ x v, t = s.withVar a x v)) := by
  cases op with
  | wr reg size value =>
    obtain ⟨h1, rfl, h3, h4⟩ := agentWrite_next _ _ _ _ _ _ h
    exact .inl ⟨reg, value, rfl, h1, h3, h4⟩
  | rd reg size x =>
    obtain ⟨-, v, -, e⟩ := agentReadWith_next _ _ _ _ _ _ _ h
    exact .inr ⟨(fun _ _ _ e => nomatch e), .inr (.inr ⟨x, v, e⟩)⟩
  | assign x value => cases h; exact .inr ⟨(fun _ _ _ e => nomatch e), .inr (.inr ⟨x, _, rfl⟩)⟩
  | ifGoto x cmp y l =>
    simp only [hostOpWith] at h
    split at h
    · exact .inr ⟨(fun _ _ _ e => nomatch e), .inr (.inl (jumpTo_cases _ _ _ _ h))⟩
    · cases h; exact .inr ⟨(fun _ _ _ e => nomatch e), .inl rfl⟩
  | goto l => exact .inr ⟨(fun _ _ _ e => nomatch e), .inr (.inl (jumpTo_cases _ _ _ _ h))⟩
  | label l => cases h; exact .inr ⟨(fun _ _ _ e => nomatch e), .inl rfl⟩

/-- What an agent's variables hold does not depend on what it has still to do. -/
@[simp] theorem varsOf_withTodo (s : State) (a b : AgentId) (todo : List HostOp) :
    (s.withTodo a todo).varsOf b = s.varsOf b := by
  simp [State.varsOf]

@[simp] theorem varsOf_schedule (s : State) (sched : List Turn) (b : AgentId) :
    ({ s with schedule := sched } : State).varsOf b = s.varsOf b := rfl

/-- Everything a step can do, in the build of any record: nothing; a reset of the block; an agent's bus write of one aligned word, which the bus
serves on a state with the same block and the same host variables; or a step that leaves the block as it is, serves no
write, and assigns at most one host variable (60_exceptions.md R182, 70_reset_and_hazards.md R190). -/
theorem stepWith_cases (c : Config) (s t : State) (h : stepWith c s = .next t) :
    (∃ rest, s.schedule = .reset :: rest ∧ t = resetBlock c { s with schedule := rest }) ∨
    (∃ who addr v s', nextAccess s = some (who, .write addr v) ∧ s'.tx = s.tx ∧ s'.rx = s.rx ∧
      (∀ b, (s'.agents.get b).vars = (s.agents.get b).vars) ∧ busWriteWith c addr 4 v s' = .next t) ∨
    (s.schedule.head? ≠ some .reset ∧ (∀ who addr v, nextAccess s ≠ some (who, .write addr v)) ∧
      t.tx = s.tx ∧ t.rx = s.rx ∧
      ∀ b, (t.agents.get b).vars = (s.agents.get b).vars ∨
        ∃ x v, (t.agents.get b).vars = assignVar x v (s.agents.get b).vars) := by
  unfold stepWith at h
  split at h
  · rename_i hs
    cases h
    exact .inr (.inr ⟨by simp [hs], by simp [nextAccess, hs], rfl, rfl, fun _ => .inl rfl⟩)
  · rename_i turn rest hs
    cases turn with
    | reset => cases h; exact .inl ⟨rest, hs, rfl⟩
    | agent a =>
      refine .inr ?_
      simp only [takeTurn, agentTurn] at h
      split at h
      · rename_i ht
        cases h
        have ht : (s.agents.get a).todo = [] := ht
        exact .inr ⟨by simp [hs], by simp [nextAccess, hs, ht], rfl, rfl, fun _ => .inl rfl⟩
      · rename_i op ops ht
        have ht : (s.agents.get a).todo = op :: ops := ht
        rcases hostOpWith_cases c a op _ t h with ⟨reg, value, rfl, hlt, hal, hw⟩ | ⟨hop, ht'⟩
        · refine .inl ⟨a, _, _, ({ s with schedule := rest } : State).withTodo a ops, ?_, rfl, rfl, ?_, hw⟩
          · simp only [varsOf_withTodo, varsOf_schedule] at hlt hal ⊢
            simp only [nextAccess, hs, ht, accessOf, if_pos (And.intro hlt hal), Option.map_some]
          · intro b; simp
        · refine .inr ⟨by simp [hs], ?_, ?_⟩
          · intro who addr v
            simp only [nextAccess, hs, ht]
            cases op with
            | wr reg size value => exact absurd rfl (hop reg size value)
            | rd reg size x =>
              simp only [accessOf]
              split <;> simp
            | _ => simp [accessOf]
          · rcases ht' with rfl | ⟨todo, rfl⟩ | ⟨x, v, rfl⟩
            · exact ⟨rfl, rfl, fun b => .inl (by simp)⟩
            · exact ⟨rfl, rfl, fun b => .inl (by simp)⟩
            · refine ⟨rfl, rfl, fun b => ?_⟩
              by_cases hb : b = a
              · subst hb; exact .inr ⟨x, v, by simp⟩
              · exact .inl (by simp [State.withVar, hb])

/-- `stepWith_cases` for the machine. -/
theorem step_cases (s t : State) (h : step s = .next t) :
    (∃ rest, s.schedule = .reset :: rest ∧ t = resetBlock Config.built { s with schedule := rest }) ∨
    (∃ who addr v s', nextAccess s = some (who, .write addr v) ∧ s'.tx = s.tx ∧ s'.rx = s.rx ∧
      (∀ b, (s'.agents.get b).vars = (s.agents.get b).vars) ∧ busWrite addr 4 v s' = .next t) ∨
    (s.schedule.head? ≠ some .reset ∧ (∀ who addr v, nextAccess s ≠ some (who, .write addr v)) ∧
      t.tx = s.tx ∧ t.rx = s.rx ∧
      ∀ b, (t.agents.get b).vars = (s.agents.get b).vars ∨
        ∃ x v, (t.agents.get b).vars = assignVar x v (s.agents.get b).vars) :=
  stepWith_cases Config.built s t h

end Sys2Proof.Machine
end

