-- ==== Sys2Proof/Tests/Slice0.lean ====
section
/-! SUPPORT. The model's own tests: words and results taken from spec/95_test_vectors.md and hand calculation from the
rules, and for every statement with hypotheses a concrete case that meets them. -/

set_option Elab.async false

namespace Sys2Proof.Tests
open Sys2Proof.Machine

/-! ### Helpers -/

/-- The next state, if there is one. -/
def nextOf : Result → Option State
  | .next s => some s
  | .fault _ => none
  | .refused _ => none

/-- Reset with symbols in TX_SYM. -/
def withSyms (s0 s1 s2 : Word) : State :=
  { State.reset with tx := { State.reset.tx with sym := ⟨s0, s1, s2⟩ } }

/-- Reset with a pattern in TX_BITS. -/
def withTxBits (b : Word) : State := { State.reset with tx := { State.reset.tx with bits := b } }

/-- Reset with a pattern in RX_BITS. -/
def withRxBits (b : Word) : State := { State.reset with rx := { State.reset.rx with bits := b } }

/-- Reset with a capture: pair 0, then 23 pairs (880, 328), a trailer word and a count. -/
def withCap (first trailerWord : Word) (count : BitVec 16) : State :=
  { State.reset with rx :=
    { State.reset.rx with
      capcnt := count
      cap := ((Vector.replicate 25 0x01480370).set 0 first).set 24 trailerWord } }

/-- Reset with one agent about to do one operation. -/
def aboutTo (who : AgentId) (op : HostOp) : State :=
  { State.reset.load who [op] with schedule := [.agent who] }

/-- The default record with SYNC0 = (328, 10000), as program P4 of 95_test_vectors.md assumes. -/
def syncConfig : Config := { Config.built with profile0 := ⟨⟨328, 10000⟩, ⟨328, 880⟩, ⟨880, 328⟩⟩ }

/-- The default record with AMBIG_POLICY = HIGH_FIRST and the largest transmit buffer, 0 to 15360 being allowed
(00_scope.md section 4). -/
def highFirstConfig : Config := { Config.built with ambigPolicy := .highFirst, txDepth := 15360 }

/-! ### Well-formedness -/

theorem test_wf_refuses_tri_enc_op_on_tx : (Instr.reservedTx 0x1).wf = false := by decide +kernel
theorem test_wf_refuses_wave_enc_op_on_tx : (Instr.reservedTx 0x2).wf = false := by decide +kernel
theorem test_wf_refuses_wave_dec_op_on_rx : (Instr.reservedRx 0x3).wf = false := by decide +kernel
theorem test_wf_refuses_tri_dec_op_on_rx : (Instr.reservedRx 0x4).wf = false := by decide +kernel
theorem test_labels_refuse_missing : labelsResolve [.goto 1, .label 0] = false := by decide +kernel

/-! ### Decoding: words of 30_encoding.md R83 and 95_test_vectors.md sections 2.7 and 2.8 -/

theorem test_decode_triEnc : decode .tx 0x00000001 = .triEnc := by decide +kernel
theorem test_decode_waveEnc : decode .tx 0x00000A12 = .waveEnc 1 10 := by decide +kernel
theorem test_decode_waveEnc_reserved_bits : decode .tx 0xFFFF02C2 = .waveEnc 0 2 := by decide +kernel
theorem test_decode_waveDec : decode .rx 0x00000003 = .waveDec := by decide +kernel
theorem test_decode_triDec : decode .rx 0x00000004 = .triDec := by decide +kernel
theorem test_decode_reservedTx : decode .tx 0x0000000F = .reservedTx 0xF := by decide +kernel
theorem test_decode_reservedRx : decode .rx 0x00000001 = .reservedRx 0x1 := by decide +kernel
theorem test_decode_bytes_little_endian : decodeBytes .tx [0x12, 0x0A, 0x00, 0x00] = .ok (.waveEnc 1 10) := by decide +kernel
theorem test_decode_bytes_short : decodeBytes .tx [0x12, 0x0A, 0x00] = .error .notOneWord := by decide +kernel
theorem test_decodeTableWord_waveDec : decodeTableWord 32 0x00000003 = some .waveDec := by decide +kernel

/-! ### Commands: 95_test_vectors.md sections 2.2 to 2.7 -/

/-- "01F0f1F01f10" gives 0x003B2E2C. -/
theorem test_triEnc_pairs :
    (nextOf (exec .triEnc (withSyms 0x30463130 0x30463166 0x30316631))).map (fun t => (t.tx.bits, t.tx.status)) =
      some (0x003B2E2C, ⟨0, 1⟩) := by decide +kernel

/-- "00000000000x" fails. -/
theorem test_triEnc_bad_symbol :
    (nextOf (exec .triEnc (withSyms 0x30303030 0x30303030 0x78303030))).map (fun t => (t.tx.bits, t.tx.status)) =
      some (0, ⟨5, 1⟩) := by decide +kernel

/-- 0x003B2E2C gives "01F0F1F01F10". -/
theorem test_triDec_symbols :
    (nextOf (exec .triDec (withRxBits 0x003B2E2C))).map (fun t => (t.rx.sym, t.rx.status)) =
      some (⟨0x30463130, 0x30463146, 0x30314631⟩, ⟨0, 4⟩) := by decide +kernel

/-- Pair 11 = 01 fails. -/
theorem test_triDec_pair01 :
    (nextOf (exec .triDec (withRxBits 0x00400000))).map (fun t => (t.rx.sym, t.rx.status)) =
      some (⟨0, 0, 0⟩, ⟨5, 4⟩) := by decide +kernel

/-- V7: 0x00000005 twice gives 50 pairs, HIGH at 1, 3, 26, 28 and LOW at 2 and 49. -/
theorem test_waveEnc_train :
    (nextOf (exec (.waveEnc 0 2) (withTxBits 0xFF000005))).map (fun t =>
      (t.tx.len, [1, 2, 3, 4, 24, 26, 27, 28, 49, 50].map (t.tx.buf.getD · 0))) =
      some (50, [0x03700148, 0x01480370, 0x03700148, 0x01480370, 0x01480370, 0x03700148, 0x01480370, 0x03700148,
        0x01480370, 0]) := by decide +kernel

/-- n = 11 with PSEL 2: the protocol check comes first. -/
theorem test_waveEnc_protocol_first :
    (nextOf (exec (.waveEnc 2 11) State.reset)).map (·.tx.status) = some ⟨2, 2⟩ := by decide +kernel

/-- Active 29 is HIGH, sum 28693, 298 ticks per bit. -/
theorem test_waveDec_edge_high :
    (nextOf (exec .waveDec (withCap 0x0370001D 0x00000148 25))).map (fun t => (t.rx.bits, t.rx.tpb, t.rx.status)) =
      some (1, 298, ⟨0, 3⟩) := by decide +kernel

/-- (28, 880) with count 24: the frame check comes first. -/
theorem test_waveDec_frame_first :
    (nextOf (exec .waveDec (withCap 0x0370001C 0x00000148 24))).map (·.rx.status) = some ⟨6, 3⟩ := by decide +kernel

/-- (600, 600) is a 1 under HIGH_FIRST and unclassifiable under REJECT. -/
theorem test_classify_ambiguous :
    classify Config.built ⟨600, 600⟩ = none ∧
    classify { Config.built with ambigPolicy := .highFirst } ⟨600, 600⟩ = some true := by decide +kernel

/-- The same through the commands of the two builds. -/
theorem test_waveDec_ambiguous_builds :
    (nextOf (execWith highFirstConfig .waveDec (withCap 0x02580258 0x00000148 25))).map
      (fun t => (t.rx.bits, t.rx.status)) = some (1, ⟨0, 3⟩) ∧
    (nextOf (exec .waveDec (withCap 0x02580258 0x00000148 25))).map (·.rx.status) = some ⟨5, 3⟩ := by decide +kernel

/-- TX_DEPTH = 0: only n = 0 succeeds (41_waveform_encoder.md R113). -/
theorem test_waveEnc_depth_zero :
    (nextOf (stepWith { Config.built with txDepth := 0 } (aboutTo .hostTx (wrWord .txCmd 0x002)))).map
      (·.tx.status) = some ⟨0, 2⟩ ∧
    (nextOf (stepWith { Config.built with txDepth := 0 } (aboutTo .hostTx (wrWord .txCmd 0x102)))).map
      (·.tx.status) = some ⟨3, 2⟩ := by decide +kernel

theorem test_reservedTx : (nextOf (exec (.reservedTx 0xF) State.reset)).map (·.tx.status.word) = some 0xF1 := by decide +kernel
theorem test_reservedRx : (nextOf (exec (.reservedRx 0x1) State.reset)).map (·.rx.status.word) = some 0x11 := by decide +kernel

/-! ### Bus and agents: 95_test_vectors.md section 2.7 -/

theorem test_capcnt_keeps_16_bits :
    (nextOf (busWrite 0x005C 4 0x12345678 State.reset)).map (memRead Config.built 0x005C) = some 0x00005678 := by decide +kernel

theorem test_cap_store :
    (nextOf (busWrite 0x008C 4 0xDEADBEEF State.reset)).map (fun t => (memRead Config.built 0x008C t, memRead Config.built 0x0090 t)) =
      some (0xDEADBEEF, 0) := by decide +kernel

theorem test_misaligned_read_refused : busRead 0x0002 4 State.reset = .error .misalignedAccess := by rfl

theorem test_first_step_runs_placed_word :
    (nextOf (step (State.reset.withFetchWord 32 0x00000004))).map (fun t => (t.rx.sym.sym0, t.rx.status.word)) =
      some (0x30303030, 0x40) := by decide +kernel

/-- "0" to "2" packed: lane 0 is the first character. -/
theorem test_symTx_packs_first_character_low :
    (Pseudo.symTx (Vector.ofFn fun i => BitVec.ofNat 8 i.val)).expand =
      [wrWord .txSym0 0x03020100, wrWord .txSym1 0x07060504, wrWord .txSym2 0x0B0A0908] := by decide +kernel

/-- A `wave.dec` whose operands nobody wrote breaks the duty of R194. -/
theorem test_duty_operands :
    keepsDuties Config.built 1 .start (aboutTo .hostRx (wrWord .rxCmd 3)) = false ∧
    keepsDuties Config.built 1 .start (aboutTo .hostRx (wrWord .rxBits 3)) = true := by decide +kernel

/-- What entry 12 of the log says of a reset and of a host write of RX_BITS. -/
theorem test_duty_choices :
    ({ Monitor.start with trainUntil := some 24 } : Monitor).observe
      { State.reset with schedule := [.reset] } = .ok .start ∧
    ({ Monitor.start with rxUnchecked := true } : Monitor).observe (aboutTo .hostRx (wrWord .rxBits 3)) =
      .ok { Monitor.start with rxUnchecked := true, rxUser := some .hostRx, rxBitsWritten := true } := by decide +kernel

/-! ### Witnesses: a case that meets the hypotheses of each statement -/

theorem witness_DecodeOfEncodeIsIdentity : (Instr.waveEnc 3 255).wf = true ∧ (Instr.reservedTx 15).wf = true ∧
    (Instr.reservedRx 2).wf = true := by decide +kernel

theorem witness_OpcodeSelectsOperation :
    (0xFFFFFFF1#32).toNat % 16 = 1 ∧ (0xFFFFFFF2#32).toNat % 16 = 2 ∧
    (0x00000003#32).toNat % 16 ≠ 1 ∧ (0x00000003#32).toNat % 16 ≠ 2 ∧
    (0x00000003#32).toNat % 16 = 3 ∧ (0x00000004#32).toNat % 16 = 4 ∧
    (0x0000000F#32).toNat % 16 ≠ 3 ∧ (0x0000000F#32).toNat % 16 ≠ 4 := by decide +kernel

theorem witness_WaveEncFieldsAreTheirBits : (0xFFFFFFF2#32).toNat % 16 = 2 := by decide +kernel

theorem witness_IgnoredBitsChangeNothing : (0xFFFFFFF1#32).toNat % 16 ≠ 2 := by decide +kernel

theorem witness_reserved_ranges :
    [0x001C#16, 0x003C, 0x0060, 0x007C, 0x00E4, 0x0FFC, 0x1400, 0xFFFC].all (fun a => decide (a.toNat % 4 = 0 ∧
      ((0x001C ≤ a.toNat ∧ a.toNat ≤ 0x003F) ∨ (0x0060 ≤ a.toNat ∧ a.toNat ≤ 0x007F) ∨
       (0x00E4 ≤ a.toNat ∧ a.toNat ≤ 0x0FFF) ∨ 0x1400 ≤ a.toNat))) = true := by decide +kernel

theorem witness_ReadReturnsAddressedRegister :
    Config.built.Legal ∧ highFirstConfig.Legal ∧ ({ Config.built with txDepth := 0 } : Config).Legal ∧
    15359 < highFirstConfig.txDepth ∧ 0x1000 + 4 * Config.built.txDepth ≤ (0x1400#16).toNat ∧
    agentReadWith Config.built .pulseGen 0x13FC 4 7 State.reset = .next (State.reset.withVar .pulseGen 7 0) :=
  ⟨by decide, by decide, by decide, by decide, by decide, rfl⟩

theorem witness_WriteActsByRegion :
    highFirstConfig.Legal ∧ 15359 < highFirstConfig.txDepth ∧
    region highFirstConfig 0xFFFC = .txbuf 15359 ∧ region { Config.built with txDepth := 0 } 0x1000 = .reserved :=
  ⟨by decide, by decide, by decide +kernel, by decide +kernel⟩

theorem witness_StoreShowsOnlyAtItsAddress :
    [0x0008#16, 0x0018, 0x0048, 0x005C, 0x0080, 0x00E0].all (fun a => decide (a.toNat ≠ 0x0000 ∧ a.toNat ≠ 0x0040 ∧
      (0x1000#16).toNat % 4 = 0 ∧ (0x1000#16) ≠ a ∧
      (nextOf (busWrite a 4 0xFFFFFFFF State.reset)).isSome)) = true := by decide +kernel

theorem witness_NonWordAccessRefused : (2 ≠ 4 ∨ (0x0000#16).toNat % 4 ≠ 0) ∧ (4 ≠ 4 ∨ (0x0002#16).toNat % 4 ≠ 0) := by
  decide +kernel

theorem witness_AlignedAccessCompletes : (0xFFFC#16).toNat % 4 = 0 := by decide +kernel

theorem witness_AddressBeyondBusFaults :
    2 ^ 16 ≤ (RegRef.byteAddress (.lit 0x00010000)).address (State.reset.varsOf .hostTx) ∧
    2 ^ 16 ≤ (RegRef.txbuf (.lit 0x00003C00)).address (State.reset.varsOf .hostTx) := by decide +kernel

theorem witness_EveryAgentHasTheSameAccess :
    hostOp .capture (.rd (.byteAddress (.lit 0x00000080)) 4 0) State.reset =
      .next (State.reset.withVar .capture 0 0) := by rfl

theorem witness_EveryAgentHasTheSameAccess_aligned :
    (0x0000FFFC#32).toNat < 2 ^ 16 ∧ (0x0000FFFC#32).toNat % 4 = 0 ∧
    (0x00000000#32).toNat < 2 ^ 16 ∧ (0x00000000#32).toNat % 4 = 0 := by decide +kernel

theorem witness_CommandWritesItsStatus :
    (0x0044#16).toNat ≠ 0x0000 ∧ (0x0044#16).toNat ≠ 0x0040 ∧
    busWrite 0x0044 4 0xFFFFFFFF State.reset = .next State.reset := ⟨by decide +kernel, by decide +kernel, rfl⟩

theorem witness_ResetTurnRestoresBlock :
    ({ withTxBits 5 with schedule := [.reset] } : State).schedule = .reset :: [] := by rfl

theorem witness_CommandsRightAfterReset : (10#8).toNat ≤ 10 := by decide +kernel

theorem witness_CommandsReportOnlyTheirCodes :
    ∀ i ∈ [Instr.triEnc, .waveEnc 1 3, .waveDec, .triDec, .reservedTx 0, .reservedRx 0],
      (nextOf (exec i State.reset)).isSome := by decide +kernel

/-- A state that no run reaches: STATUS registers that hold the unused codes 4 and 7. -/
def oddStatus : State :=
  { State.reset with
    tx := { State.reset.tx with status := ⟨4, 0⟩ }
    rx := { State.reset.rx with status := ⟨7, 0⟩ } }

theorem witness_UnusedCodesNeverWritten :
    step oddStatus = .next oddStatus ∧ oddStatus.tx.status.err = 4 ∧ 7 ≤ oddStatus.rx.status.err.toNat :=
  ⟨rfl, by decide +kernel, by decide +kernel⟩

theorem witness_UnusedCodesNeverWritten_reserved :
    ((nextOf (step (aboutTo .hostTx (wrWord .txCmd 0xF)))).map fun t =>
      decide (t.tx.status.err = 1 ∧ t.tx.status ≠ State.reset.tx.status)) = some true ∧
    ((nextOf (step (aboutTo .hostRx (wrWord .rxCmd 0x1)))).map fun t =>
      decide (t.rx.status.err = 1 ∧ t.rx.status ≠ State.reset.rx.status)) = some true := by decide +kernel

theorem witness_ErrorsAreNotSticky : Instr.triEnc.cmdReg = .tx ∧ Instr.triDec.cmdReg = .rx := by decide +kernel

theorem witness_OnlyCommandsChangeStatus :
    (State.reset.withFetchWord 32 2).schedule.head? ≠ some .reset ∧
    ((nextOf (step (State.reset.withFetchWord 32 2))).map fun t => decide (t.tx.status ≠ State.reset.tx.status)) =
      some true ∧
    ((nextOf (step (State.reset.withFetchWord 32 3))).map fun t => decide (t.rx.status ≠ State.reset.rx.status)) =
      some true := by decide +kernel

theorem witness_ResultRegistersHaveOneWriter :
    ((nextOf (step (State.reset.withFetchWord 32 0x102))).map fun t => t.tx.len) = some 25 ∧
    ((nextOf (step ((withCap 0x03700148 0x00000148 25).withFetchWord 32 3))).map fun t => t.rx.tpb) = some 302 ∧
    ((nextOf (step (State.reset.withFetchWord 32 4))).map fun t => t.rx.sym.sym0) = some 0x30303030 ∧
    ((nextOf (step (aboutTo .hostTx (wrWord .txSym2 1)))).map fun t => t.tx.sym.sym2) = some 1 ∧
    ((nextOf (step (aboutTo .capture (wrWord (.cap (.lit 24)) 1)))).map fun t => t.rx.cap[24]) = some 1 ∧
    ((nextOf (step (aboutTo .capture (wrWord .rxCapcnt 1)))).map fun t => t.rx.capcnt) = some 1 := by decide +kernel

theorem witness_FirstFailingCheckDecides :
    reservedOnTx 0 = true ∧ reservedOnRx 15 = true ∧ 2 ≤ (2#2).toNat ∧ 2 ≤ (3#2).toNat ∧
    ((1#2).toNat < 2 ∧ Config.built.txDepth < 25 * (11#8).toNat) ∧
    frameOk Config.built (withCap 0x03700148 0x00000148 26).rx = false ∧
    (frameOk Config.built (withCap 0x0370001C 0x00000148 25).rx = true ∧
      classify Config.built (PulsePair.ofWord (withCap 0x0370001C 0x00000148 25).rx.cap[0]) = none) ∧
    symToPair (symbolByte State.reset.tx.sym 11) = none ∧
    pairToSym (pairOf (withRxBits 0x00400000).rx.bits 11) = none := by decide +kernel

theorem witness_ReservedOpcodeSetsOnlyStatus :
    [0x00000000#32, 0x0000000F].all (fun w =>
      decide (w.toNat % 16 ≠ 1 ∧ w.toNat % 16 ≠ 2 ∧ w.toNat % 16 ≠ 3 ∧ w.toNat % 16 ≠ 4)) = true := by
  decide +kernel

/-- Two states that agree on the low 24 bits of the patterns and differ above. -/
theorem witness_CommandsReadAndWriteOnlyTheirRegisters :
    (withTxBits 0xFF000005).tx.bits.setWidth 24 = (withTxBits 0x00000005).tx.bits.setWidth 24 ∧
    (withTxBits 0xFF000005).tx.buf.length = (withTxBits 0x00000005).tx.buf.length ∧
    (withTxBits 0xFF000005).tx.sym = (withTxBits 0x00000005).tx.sym ∧
    (withRxBits 0xFF000005).rx.bits.setWidth 24 = (withRxBits 0x00000005).rx.bits.setWidth 24 ∧
    (withRxBits 0xFF000005).rx.capcnt = (withRxBits 0x00000005).rx.capcnt ∧
    (∀ i ∈ [Instr.triEnc, .waveEnc 0 1, .reservedTx 0],
      (nextOf (exec i (withTxBits 0xFF000005))).isSome ∧ (nextOf (exec i (withTxBits 0x00000005))).isSome) ∧
    (∀ i ∈ [Instr.waveDec, .triDec, .reservedRx 0],
      (nextOf (exec i (withRxBits 0xFF000005))).isSome ∧ (nextOf (exec i (withRxBits 0x00000005))).isSome) := by decide +kernel

theorem witness_TriEncSetsPairsOfSymbols :
    (∀ j, j < 12 → symbolByte (withSyms 0x30463130 0x30463166 0x30316631).tx.sym j ∈ [(0x30 : Byte), 0x31, 0x46, 0x66]) ∧
    symbolByte (withSyms 0x30303030 0x30303030 0x78303030).tx.sym 11 ∉ [(0x30 : Byte), 0x31, 0x46, 0x66] := by decide +kernel

theorem witness_command_words :
    (0xFFFFFFF1#32).toNat % 16 = 1 ∧ (0xFFFFFFF2#32).toNat % 16 = 2 ∧ (0xFFFFFFF3#32).toNat % 16 = 3 ∧
    (0xFFFFFFF4#32).toNat % 16 = 4 := by decide +kernel

theorem witness_TriDecWritesSymbolsOfPairs :
    (∀ j, j < 12 → (0xFF8AA2AA#32).getLsbD (2 * j) = true → (0xFF8AA2AA#32).getLsbD (2 * j + 1) = true) ∧
    ((0x00400000#32).getLsbD (2 * 11) = true ∧ (0x00400000#32).getLsbD (2 * 11 + 1) = false) := by decide +kernel

theorem witness_SymbolCodecRoundTrip :
    (nextOf (exec .triEnc (withSyms 0x66666666 0x66663066 0x66306666))).map (·.tx.bits) =
      some (withRxBits 0x008AA2AA).rx.bits ∧
    (nextOf (exec .triDec (withRxBits 0x008AA2AA))).map (·.rx.sym) =
      some (withSyms 0x46464646 0x46463046 0x46304646).tx.sym := by decide +kernel

theorem witness_WaveEncWritesTrain :
    State.reset.tx.buf.length = Config.built.txDepth ∧ 25 * (10#8).toNat ≤ Config.built.txDepth ∧
    ((2#2) = 2 ∨ (2#2) = 3) ∧ ((3#2) = 2 ∨ (3#2) = 3) ∧ Config.built.txDepth < 25 * (11#8).toNat := by decide +kernel

theorem witness_WaveEncCompletesOnTheMachine :
    Memory.wf State.reset ∧
    ((0#2) = 0 ∧ Config.built.profile0 = Config.built.profile0 ∨
      (0#2) = 1 ∧ Config.built.profile0 = Config.built.profile1) ∧
    ((1#2) = 0 ∧ Config.built.profile1 = Config.built.profile0 ∨
      (1#2) = 1 ∧ Config.built.profile1 = Config.built.profile1) ∧ (10#8).toNat ≤ 10 :=
  ⟨reset_memory_wf, .inl ⟨rfl, rfl⟩, .inr ⟨rfl, rfl⟩, by decide⟩

theorem witness_PairsClassifyByWindows :
    (highShape Config.built ⟨29, 531⟩ = true ∧ lowShape Config.built ⟨29, 531⟩ = false) ∧
    (highShape Config.built ⟨1230, 628⟩ = false ∧ lowShape Config.built ⟨1230, 628⟩ = true) ∧
    (highShape Config.built ⟨28, 880⟩ = false ∧ lowShape Config.built ⟨28, 880⟩ = false) ∧
    (highShape Config.built ⟨628, 531⟩ = true ∧ lowShape Config.built ⟨628, 531⟩ = true) ∧
    Config.built.ambigPolicy = .reject := by decide +kernel

theorem witness_WaveDecDecodesCapture :
    [0x00000096#32, 0x0000018F].all (fun w => decide (
      frameOk Config.built (withCap 0x03700148 w 25).rx = true ∧
      (∀ i : Fin 24, classify Config.built (PulsePair.ofWord (withCap 0x03700148 w 25).rx.cap[i.val]) =
        some (decide (i.val = 0))))) = true ∧
    [0x00000095#32, 0x00000190, 0x00010148].all
      (fun w => !frameOk Config.built (withCap 0x03700148 w 25).rx) = true ∧
    classify Config.built (PulsePair.ofWord (withCap 0x0370001C 0x00000148 25).rx.cap[0]) = none := by decide +kernel

theorem witness_WaveDecCompletesOnTheMachine :
    (withCap 0x03700148 0x00000096 25).rx.capcnt = 25 ∧
    150 ≤ (PulsePair.ofWord (withCap 0x03700148 0x00000096 25).rx.cap[24]).active.toNat ∧
    (PulsePair.ofWord (withCap 0x03700148 0x00000096 25).rx.cap[24]).active.toNat < 400 ∧
    (PulsePair.ofWord (withCap 0x03700148 0x00000096 25).rx.cap[24]).idle = 0 ∧
    ∀ p ∈ dataPairs (withCap 0x03700148 0x00000096 25).rx.cap,
      highShape Config.built p ≠ lowShape Config.built p := by decide +kernel

theorem witness_AmbiguousPairsGoByPolicy :
    frameOk Config.built (withCap 0x02580258 0x00000148 25).rx = true ∧ Config.built.ambigPolicy = .reject ∧
    (∃ p ∈ dataPairs (withCap 0x02580258 0x00000148 25).rx.cap,
      highShape Config.built p = true ∧ lowShape Config.built p = true) ∧
    frameOk highFirstConfig (withCap 0x02580258 0x00000148 25).rx = true ∧ highFirstConfig.ambigPolicy = .highFirst ∧
    (∀ p ∈ dataPairs (withCap 0x02580258 0x00000148 25).rx.cap,
      highShape highFirstConfig p = true ∨ lowShape highFirstConfig p = true) := by decide +kernel

theorem witness_MachineIsTheDefaultBuild : (∀ p n, Instr.triDec ≠ .waveEnc p n) ∧ Instr.triDec ≠ .waveDec :=
  ⟨(fun _ _ e => nomatch e), (fun e => nomatch e)⟩

theorem witness_TicksPerBitBounds_pairs :
    classify Config.built ⟨29, 531⟩ ≠ none ∧ classify Config.built ⟨628, 1230⟩ ≠ none := by decide +kernel

theorem witness_TicksPerBitBounds :
    ∀ p ∈ dataPairs (withCap 0x03700148 0x00000148 25).rx.cap, classify Config.built p ≠ none := by decide +kernel

theorem witness_IdealChannelCutsAtSync : 2 ≤ 2 ∧ 0 < 2 - 1 := by decide +kernel

theorem witness_IdealChannelRoundTrip :
    syncConfig.Legal ∧ RoundTripProfile syncConfig syncConfig.profile0 ∧ 2 ≤ 3 ∧ 1 < 3 - 1 ∧
    syncConfig.profile0.high = ⟨328, 880⟩ ∧ syncConfig.profile0.low = ⟨880, 328⟩ := by
  refine ⟨by decide +kernel, ?_, by decide +kernel, by decide +kernel, rfl, rfl⟩
  unfold RoundTripProfile
  decide +kernel

theorem witness_TransmittedPatternIsReceived :
    profileOf syncConfig 0 = some syncConfig.profile0 ∧ RoundTripProfile syncConfig syncConfig.profile0 ∧
    (withTxBits 5).tx.buf.length = syncConfig.txDepth ∧ 25 * (2#8).toNat ≤ syncConfig.txDepth ∧ 0 + 1 < (2#8).toNat ∧
    (nextOf (execWaveEncWith syncConfig 0 2 (withTxBits 5))).map (fun t => (t.tx.buf.getD 25 0 &&& 0x0000FFFF)) =
      some 0x00000148 := by
  refine ⟨rfl, ?_, by decide +kernel, by decide +kernel, by decide +kernel, by decide +kernel⟩
  unfold RoundTripProfile
  decide +kernel

theorem witness_StepRunsDecodedCommand :
    (aboutTo .hostTx (.wr .txCmd 4 (.lit 1))).schedule = .agent .hostTx :: [] ∧
    ((aboutTo .hostTx (.wr .txCmd 4 (.lit 1))).agents.get .hostTx).todo = .wr .txCmd 4 (.lit 1) :: [] ∧
    RegRef.txCmd.address ((aboutTo .hostTx (.wr .txCmd 4 (.lit 1))).varsOf .hostTx) = 0x0000 ∧
    (RegRef.byteAddress (.lit 0x40)).address ((aboutTo .hostTx (.wr .txCmd 4 (.lit 1))).varsOf .hostTx) = 0x0040 :=
  ⟨rfl, rfl, rfl, rfl⟩

theorem witness_PlacedWordIsRun : 32 ≤ 32 ∧ 0xFFFFFFFF < 2 ^ 32 ∧ 8 ≤ 32 ∧ 0x03 < 2 ^ 8 := by decide +kernel

theorem witness_StepDeliversReadValue :
    (aboutTo .pulseGen (.rd (.txbuf (.lit 255)) 4 0)).schedule = .agent .pulseGen :: [] ∧
    ((aboutTo .pulseGen (.rd (.txbuf (.lit 255)) 4 0)).agents.get .pulseGen).todo = .rd (.txbuf (.lit 255)) 4 0 :: [] ∧
    (RegRef.txbuf (.lit 255)).address ((aboutTo .pulseGen (.rd (.txbuf (.lit 255)) 4 0)).varsOf .pulseGen) < 2 ^ 16 ∧
    (RegRef.txbuf (.lit 255)).address ((aboutTo .pulseGen (.rd (.txbuf (.lit 255)) 4 0)).varsOf .pulseGen) % 4 = 0 :=
  ⟨rfl, rfl, by decide +kernel, by decide +kernel⟩

theorem witness_BlockChangesOnlyInWrites :
    (nextOf (step (aboutTo .hostRx (rdWord .rxBits 0)))).isSome ∧
    nextAccess (aboutTo .hostRx (rdWord .rxBits 0)) = some (.hostRx, .read 0x0048) ∧
    State.reset.schedule = [] := by decide +kernel

/-- A state that meets the invariant and steps on: reset with a pattern written to RX_BITS. -/
theorem witness_StepKeepsInvariant : (withRxBits 1).Inv ∧ step (withRxBits 1) = .next (withRxBits 1) := by
  refine ⟨⟨reset_memory_wf, by decide +kernel, by decide +kernel, ?_, by decide +kernel, by decide +kernel, fun a => by cases a <;> decide +kernel⟩, rfl⟩
  exact ⟨0, 0, Config.built.profile0, by decide +kernel, .inl rfl, by decide +kernel, by decide +kernel, rfl⟩

theorem witness_StepKeepsInvariant_build :
    (State.resetWith highFirstConfig).InvWith highFirstConfig ∧
    stepWith highFirstConfig (State.resetWith highFirstConfig) = .next (State.resetWith highFirstConfig) :=
  ⟨⟨resetWith_memory_wf _, by decide +kernel, by decide +kernel,
    ⟨0, 0, highFirstConfig.profile0, by decide, .inl rfl, rfl, Nat.zero_le _, rfl⟩,
    by decide +kernel, by decide +kernel, fun a => by cases a <;> exact List.Pairwise.nil⟩, rfl⟩

theorem witness_ChannelsDoNotInterfere :
    ((0x0000#16).toNat < 0x0040 ∨ 0x1000 ≤ (0x0000#16).toNat) ∧ ((0x1000#16).toNat < 0x0040 ∨ 0x1000 ≤ (0x1000#16).toNat) ∧
    (0x0040 ≤ (0x0040#16).toNat ∧ (0x0040#16).toNat < 0x1000) ∧
    (nextOf (busWrite 0x0000 4 2 State.reset)).isSome ∧ (nextOf (busWrite 0x0040 4 3 State.reset)).isSome := by decide +kernel

theorem witness_DutiesProtectTrainInUse :
    ({ Monitor.start with trainUntil := some 24 } : Monitor).trainUntil.isSome = true ∧
    ({ Monitor.start with trainUntil := some 24 } : Monitor).observe (aboutTo .hostTx (wrWord .txBits 1)) =
      .ok { Monitor.start with trainUntil := some 24, txUser := some .hostTx, txBitsWritten := true } ∧
    (nextOf (step (aboutTo .hostTx (wrWord .txBits 1)))).isSome ∧
    (aboutTo .hostTx (wrWord .txBits 1)).schedule.head? ≠ some .reset := by decide +kernel

end Sys2Proof.Tests
end

/-! SUPPORT. Proofs of the statements on the state (10_state.md): reset, what each command reads and writes, who changes
which register, and the invariant. -/

namespace Sys2Proof.Machine

/-! ### Command words and addresses -/

theorem opField_toNat (w : Word) : (opField w).toNat = w.toNat % 16 := by
  simp [opField]

/-- What a word written to TX_CMD decodes to (30_encoding.md R76). -/
theorem decodeTx_cases (w : Word) :
    (w.toNat % 16 = 1 ∧ decode .tx w = .triEnc) ∨
    (w.toNat % 16 = 2 ∧ decode .tx w = .waveEnc (pselField w) (repeatField w)) ∨
    (reservedOnTx (opField w) = true ∧ decode .tx w = .reservedTx (opField w)) := by
  by_cases h1 : opField w = 1#4
  · exact .inl ⟨by rw [← opField_toNat, h1]; rfl, by simp [decode, decodeTx, h1]⟩
  · by_cases h2 : opField w = 2#4
    · exact .inr (.inl ⟨by rw [← opField_toNat, h2]; rfl, by simp [decode, decodeTx, h2]⟩)
    · exact .inr (.inr ⟨by simp [reservedOnTx, h1, h2], by simp [decode, decodeTx, h1, h2]⟩)

/-- What a word written to RX_CMD decodes to (30_encoding.md R77). -/
theorem decodeRx_cases (w : Word) :
    (w.toNat % 16 = 3 ∧ decode .rx w = .waveDec) ∨
    (w.toNat % 16 = 4 ∧ decode .rx w = .triDec) ∨
    (reservedOnRx (opField w) = true ∧ decode .rx w = .reservedRx (opField w)) := by
  by_cases h3 : opField w = 3#4
  · exact .inl ⟨by rw [← opField_toNat, h3]; rfl, by simp [decode, decodeRx, h3]⟩
  · by_cases h4 : opField w = 4#4
    · exact .inr (.inl ⟨by rw [← opField_toNat, h4]; rfl, by simp [decode, decodeRx, h4]⟩)
    · exact .inr (.inr ⟨by simp [reservedOnRx, h3, h4], by simp [decode, decodeRx, h3, h4]⟩)

theorem decode_wf (r : CmdReg) (w : Word) : (decode r w).wf = true := by
  cases r with
  | tx => rcases decodeTx_cases w with ⟨-, h⟩ | ⟨-, h⟩ | ⟨hr, h⟩ <;> rw [h]; exacts [rfl, rfl, hr]
  | rx => rcases decodeRx_cases w with ⟨-, h⟩ | ⟨-, h⟩ | ⟨hr, h⟩ <;> rw [h]; exacts [rfl, rfl, hr]

theorem decode_tx_cmdReg (w : Word) : (decode .tx w).cmdReg = .tx := by
  rcases decodeTx_cases w with ⟨-, h⟩ | ⟨-, h⟩ | ⟨-, h⟩ <;> rw [h] <;> rfl

theorem decode_rx_cmdReg (w : Word) : (decode .rx w).cmdReg = .rx := by
  rcases decodeRx_cases w with ⟨-, h⟩ | ⟨-, h⟩ | ⟨-, h⟩ <;> rw [h] <;> rfl

/-- The address of an access the bus serves is that of its region, reserved addresses apart (20_memory.md R51). -/
theorem toNat_eq_region_address {c : Config} {addr : Addr} {r : Region} (hal : accessRefusal addr 4 = none)
    (hregion : region c addr = r) (hr : r ≠ .reserved) : addr.toNat = r.address := by
  subst hregion
  exact regionOf_address c.txDepth addr.toNat ((accessRefusal_eq_none_iff addr 4).1 hal).2 hr

/-- Only ERR = OK is code 0 (60_exceptions.md R161). -/
theorem ErrCode.code_eq_zero_iff (e : ErrCode) : e.code = 0 ↔ e = .ok := by
  cases e <;> decide

/-! ### The machine is the default build -/

/-- Settles O51: each function of the machine is that of the build at the default record, and a command other than the
two waveform commands has one meaning in every build. -/
theorem machineIsTheDefaultBuild : Obligations.MachineIsTheDefaultBuild := by
  refine ⟨by decide, rfl, fun i s => (execWith_built i s).symm, fun _ _ _ => rfl, fun _ _ _ _ => rfl,
    fun _ _ _ => rfl, fun _ => rfl, fun c s => ⟨fun _ _ => rfl, rfl, fun i hEnc hDec => ?_⟩⟩
  cases i with
  | waveEnc p n => exact absurd rfl (hEnc p n)
  | waveDec => exact absurd rfl hDec
  | triEnc | triDec | reservedTx | reservedRx => rfl

/-! ### A step that writes a command register -/

/-- The step of an agent whose next operation is a bus write makes that write, with the turn and the operation taken
(30_encoding.md R82). -/
theorem stepWith_of_wr (c : Config) {s : State} {who : AgentId} {rest : List Turn} {reg : RegRef} {size : Nat}
    {value : HostExpr} {ops : List HostOp} (hsched : s.schedule = .agent who :: rest)
    (htodo : (s.agents.get who).todo = .wr reg size value :: ops) :
    stepWith c s = agentWrite c (reg.address (s.varsOf who)) size (value.eval (s.varsOf who))
      ({ s with schedule := rest }.withTodo who ops) := by
  simp only [stepWith, hsched, takeTurn, agentTurn, htodo, hostOpWith, varsOf_withTodo, varsOf_schedule]

/-- A word written to TX_CMD is run as a TX command (20_memory.md R56). -/
theorem agentWrite_txCmd (c : Config) (v : Word) (s : State) :
    agentWrite c 0x0000 4 v s = execWith c (decode .tx v) s := rfl

/-- A word written to RX_CMD is run as an RX command (20_memory.md R56). -/
theorem agentWrite_rxCmd (c : Config) (v : Word) (s : State) :
    agentWrite c 0x0040 4 v s = execWith c (decode .rx v) s := rfl

/-- Settles O43: the step is the agent's bus write, which at a command register runs the decoded command; the machine
is the default build. -/
theorem stepRunsDecodedCommand : Obligations.StepRunsDecodedCommand := by
  intro s who rest reg value ops hsched htodo
  constructor
  · intro haddr
    have hstep (c : Config) := (stepWith_of_wr c hsched htodo).trans (by rw [haddr, agentWrite_txCmd])
    exact ⟨(hstep Config.built).trans (execWith_built _ _), hstep⟩
  · intro haddr
    have hstep (c : Config) := (stepWith_of_wr c hsched htodo).trans (by rw [haddr, agentWrite_rxCmd])
    exact ⟨(hstep Config.built).trans (execWith_built _ _), hstep⟩

/-! ### Right after reset -/

theorem Status.word_zero : Status.word ⟨0, 0⟩ = 0 := by decide

/-- Every register and every buffer entry reads 0 after reset (10_state.md R38). -/
theorem readRegion_reset (c : Config) (r : Region) : readRegion (State.resetWith c) r = 0 := by
  cases r with
  | cap k => simp [readRegion, State.resetWith, RxChannel.reset]
  | txbuf k =>
    by_cases hk : k < c.txDepth <;>
      simp [readRegion, State.resetWith, TxChannel.resetWith, hk]
  | txStatus => exact Status.word_zero
  | rxStatus => exact Status.word_zero
  | _ => rfl

theorem symbolByte_zero (j : Nat) : symbolByte ⟨0, 0, 0⟩ j = 0 := by simp [symbolByte]

/-- Settles O16: an aligned read returns what stands at its region, and every region reads 0 after reset. -/
theorem resetIsZeroEverywhere : Obligations.ResetIsZeroEverywhere := by
  refine ⟨fun c => ⟨fun a ha => ?_, rfl, rfl, rfl, rfl, rfl, rfl, rfl, ?_, resetWith_memory_wf c, ?_, ?_⟩, rfl⟩
  · rw [busReadWith_aligned c a _ ha, readRegion_reset]
  · exact fun j _ => ⟨symbolByte_zero j, symbolByte_zero j⟩
  · exact fun w hw => List.eq_of_mem_replicate hw
  · exact fun k => readRegion_reset c (.cap k)

/-! ### What each command writes (10_state.md R39)

In each of these lemmas the next state is the state before with the command's outputs and its STATUS replaced. -/

section Frames
variable {c : Config} {s t : State}

theorem execTriEnc_frame (h : execTriEnc s = .next t) :
    t = { s with tx := { s.tx with status := t.tx.status, bits := t.tx.bits } } ∧
    (t.tx.status.err ≠ 0 → t.tx.bits = s.tx.bits) := by
  rcases execTriEnc_cases s with ⟨-, e⟩ | ⟨b, -, e⟩ <;> cases e.symm.trans h
  · exact ⟨rfl, fun _ => rfl⟩
  · exact ⟨rfl, fun herr => absurd rfl herr⟩

theorem execTriDec_frame (h : execTriDec s = .next t) :
    t = { s with rx := { s.rx with status := t.rx.status, sym := t.rx.sym } } ∧
    (t.rx.status.err ≠ 0 → t.rx.sym = s.rx.sym) := by
  rcases execTriDec_cases s with ⟨-, e⟩ | ⟨r, -, e⟩ <;> cases e.symm.trans h
  · exact ⟨rfl, fun _ => rfl⟩
  · exact ⟨rfl, fun herr => absurd rfl herr⟩

theorem execWaveDecWith_frame (h : execWaveDecWith c s = .next t) :
    t = { s with rx := { s.rx with status := t.rx.status, bits := t.rx.bits, tpb := t.rx.tpb } } ∧
    (t.rx.status.err ≠ 0 → t.rx.bits = s.rx.bits ∧ t.rx.tpb = s.rx.tpb) := by
  rcases execWaveDecWith_cases c s with ⟨err, -, -, e⟩ | ⟨bits, -, -, e⟩ <;> cases e.symm.trans h
  · exact ⟨rfl, fun _ => ⟨rfl, rfl⟩⟩
  · exact ⟨rfl, fun herr => absurd rfl herr⟩

/-- An entry at or beyond the new contents is as before, however short the buffer (10_state.md R27). -/
theorem overlay_getD_of_length_le {news olds : List Word} {k : Nat} (hk : news.length ≤ k) :
    (overlay news olds).getD k 0 = olds.getD k 0 := by
  have hdrop := congrArg (·[k - news.length]?) (overlay_drop news olds)
  simp only [List.getElem?_drop, Nat.add_sub_cancel' hk] at hdrop
  rw [List.getD_eq_getElem?_getD, hdrop, List.getD_eq_getElem?_getD]

theorem execWaveEncWith_frame {psel : BitVec 2} {rep : BitVec 8} (h : execWaveEncWith c psel rep s = .next t) :
    t = { s with tx := { s.tx with status := t.tx.status, len := t.tx.len, buf := t.tx.buf } } ∧
    (∀ k, 25 * rep.toNat ≤ k → t.tx.buf.getD k 0 = s.tx.buf.getD k 0) ∧
    (t.tx.status.err ≠ 0 → t.tx.len = 0 ∧ t.tx.buf = s.tx.buf) := by
  rcases execWaveEncWith_cases c psel rep s with ⟨err, -, -, e⟩ | ⟨p, -, -, e⟩ <;> cases e.symm.trans h
  · exact ⟨rfl, fun _ _ => rfl, fun _ => ⟨rfl, rfl⟩⟩
  · exact ⟨rfl, fun k hk => overlay_getD_of_length_le (by simpa using hk), fun herr => absurd rfl herr⟩

theorem execReservedTx_frame {op : BitVec 4} (h : execReservedTx op s = .next t) :
    t = { s with tx := { s.tx with status := t.tx.status } } := by
  cases h; rfl

theorem execReservedRx_frame {op : BitVec 4} (h : execReservedRx op s = .next t) :
    t = { s with rx := { s.rx with status := t.rx.status } } := by
  cases h; rfl

end Frames

/-! ### What each command reads (10_state.md R39)

States that agree on what a command reads give the same STATUS and, on success, the same outputs. -/

section Dependence
variable {c : Config} {s s' t t' : State}

theorem getLsbD_eq_of_setWidth {b b' : Word} (h : b.setWidth 24 = b'.setWidth 24) {i : Nat} (hi : i < 24) :
    b.getLsbD i = b'.getLsbD i := by
  simpa [hi] using congrArg (fun v : BitVec 24 => v.getLsbD i) h

/-- `tri.dec` reads bits 23:0 of the pattern only (40_symbol_codec.md R95). -/
theorem triDecode_congr {b b' : Word} (h : b.setWidth 24 = b'.setWidth 24) : triDecode b = triDecode b' := by
  have hpairs : ((List.range Config.nSym).map fun j => pairToSym (pairOf b j)) =
      (List.range Config.nSym).map fun j => pairToSym (pairOf b' j) := by
    refine List.map_congr_left fun j hj => ?_
    have hj : j < 12 := List.mem_range.1 hj
    simp only [pairOf, getLsbD_eq_of_setWidth h (by omega : 2 * j + 1 < 24),
      getLsbD_eq_of_setWidth h (by omega : 2 * j < 24)]
  simp only [triDecode, hpairs]

/-- `wave.enc` reads bits 23:0 of the pattern only (41_waveform_encoder.md R111). -/
theorem waveEncode_congr {b b' : Word} (psel : BitVec 2) (rep : BitVec 8) (h : b.setWidth 24 = b'.setWidth 24) :
    waveEncode c psel rep b = waveEncode c psel rep b' := by
  simp only [waveEncode, train_congr b b' _ _ h]

/-- `wave.dec` reads RX_CAPCNT and CAP only (42_waveform_decoder.md R137). -/
theorem waveDecode_congr {rx rx' : RxChannel} (hcnt : rx.capcnt = rx'.capcnt) (hcap : rx.cap = rx'.cap) :
    waveDecode c rx = waveDecode c rx' := by
  unfold waveDecode frameOk
  rw [hcnt, hcap]

/-- New contents written over two buffers of one length agree wherever they were written. -/
theorem overlay_getD_congr {news olds olds' : List Word} (hlen : olds.length = olds'.length) {k : Nat}
    (hk : k < news.length) : (overlay news olds).getD k 0 = (overlay news olds').getD k 0 := by
  induction news generalizing olds olds' k with
  | nil => simp at hk
  | cons new news ih =>
    cases olds with
    | nil => rw [List.length_eq_zero_iff.1 hlen.symm]
    | cons old olds =>
      cases olds' with
      | nil => simp at hlen
      | cons old' olds' =>
        cases k with
        | zero => rfl
        | succ k => exact ih (by simpa using hlen) (by simpa using hk)

theorem execTriEnc_congr (hsym : s.tx.sym = s'.tx.sym) (h : execTriEnc s = .next t) (h' : execTriEnc s' = .next t') :
    t.tx.status = t'.tx.status ∧ (t.tx.status.err = 0 → t.tx.bits = t'.tx.bits) := by
  rcases execTriEnc_cases s' with ⟨he, -⟩ | ⟨b, he, -⟩ <;> simp only [execTriEnc, hsym, he] at h h' <;>
    cases h <;> cases h'
  · exact ⟨rfl, fun herr => nomatch (ErrCode.code_eq_zero_iff .invCodeSym).1 herr⟩
  · exact ⟨rfl, fun _ => rfl⟩

theorem execTriDec_congr (hbits : s.rx.bits.setWidth 24 = s'.rx.bits.setWidth 24) (h : execTriDec s = .next t)
    (h' : execTriDec s' = .next t') :
    t.rx.status = t'.rx.status ∧ (t.rx.status.err = 0 → t.rx.sym = t'.rx.sym) := by
  rcases execTriDec_cases s' with ⟨he, -⟩ | ⟨r, he, -⟩ <;>
    simp only [execTriDec, triDecode_congr hbits, he] at h h' <;> cases h <;> cases h'
  · exact ⟨rfl, fun herr => nomatch (ErrCode.code_eq_zero_iff .invCodeSym).1 herr⟩
  · exact ⟨rfl, fun _ => rfl⟩

theorem execWaveDecWith_congr (hcnt : s.rx.capcnt = s'.rx.capcnt) (hcap : s.rx.cap = s'.rx.cap)
    (h : execWaveDecWith c s = .next t) (h' : execWaveDecWith c s' = .next t') :
    t.rx.status = t'.rx.status ∧ (t.rx.status.err = 0 → t.rx.bits = t'.rx.bits ∧ t.rx.tpb = t'.rx.tpb) := by
  rcases waveDecode_cases c s'.rx with ⟨-, he⟩ | ⟨-, ⟨-, he⟩ | ⟨bits, -, he⟩⟩ <;>
    simp only [execWaveDecWith, waveDecode_congr hcnt hcap, he] at h h' <;> cases h <;> cases h'
  · exact ⟨rfl, fun herr => nomatch (ErrCode.code_eq_zero_iff .invFrame).1 herr⟩
  · exact ⟨rfl, fun herr => nomatch (ErrCode.code_eq_zero_iff .invCodeSym).1 herr⟩
  · exact ⟨rfl, fun _ => ⟨rfl, rfl⟩⟩

theorem execWaveEncWith_congr {psel : BitVec 2} {rep : BitVec 8}
    (hbits : s.tx.bits.setWidth 24 = s'.tx.bits.setWidth 24) (hlen : s.tx.buf.length = s'.tx.buf.length)
    (h : execWaveEncWith c psel rep s = .next t) (h' : execWaveEncWith c psel rep s' = .next t') :
    t.tx.status = t'.tx.status ∧ t.tx.len = t'.tx.len ∧
    ∀ k, k < t.tx.len.toNat → t.tx.buf.getD k 0 = t'.tx.buf.getD k 0 := by
  rcases waveEncode_cases c psel rep s'.tx.bits with ⟨-, he⟩ | ⟨p, -, ⟨-, he⟩ | ⟨-, he⟩⟩ <;>
    simp only [execWaveEncWith, waveEncode_congr psel rep hbits, he] at h h' <;> cases h <;> cases h'
  · exact ⟨rfl, rfl, fun k hk => absurd hk (Nat.not_lt_zero k)⟩
  · exact ⟨rfl, rfl, fun k hk => absurd hk (Nat.not_lt_zero k)⟩
  · refine ⟨rfl, rfl, fun k hk => overlay_getD_congr hlen ?_⟩
    have hk : k < 25 * rep.toNat := Nat.lt_of_lt_of_le hk (Nat.mod_le _ _)
    simpa using hk

end Dependence

/-- Settles O27: the frame lemma and the dependence lemma of each command, at the default record. -/
theorem commandsReadAndWriteOnlyTheirRegisters : Obligations.CommandsReadAndWriteOnlyTheirRegisters := by
  constructor
  · exact fun s t => ⟨execTriEnc_frame, fun _ _ => execWaveEncWith_frame, execWaveDecWith_frame, execTriDec_frame,
      fun _ => execReservedTx_frame, fun _ => execReservedRx_frame⟩
  · intro s s' t t'
    refine ⟨execTriEnc_congr, fun _ _ => execWaveEncWith_congr, execWaveDecWith_congr, execTriDec_congr, ?_, ?_⟩
    · intro op h h'; cases h; cases h'; rfl
    · intro op h h'; cases h; cases h'; rfl

/-! ### What no command but one writes (10_state.md R25 to R35) -/

section Writers
variable {c : Config} {i : Instr} {s t : State}

/-- A TX command leaves the RX channel (10_state.md R39). -/
theorem execWith_keeps_rx (h : execWith c i s = .next t) (hi : i.cmdReg = .tx) : t.rx = s.rx := by
  obtain ⟨t', e, -, -, hrx, -⟩ := execWith_next c i s
  cases e.symm.trans h
  exact hrx hi

/-- An RX command leaves the TX channel (10_state.md R39). -/
theorem execWith_keeps_tx (h : execWith c i s = .next t) (hi : i.cmdReg = .rx) : t.tx = s.tx := by
  obtain ⟨t', e, -, -, -, htx⟩ := execWith_next c i s
  cases e.symm.trans h
  exact htx hi

/-- No command but `wave.enc` writes TXBUF or TX_LEN (10_state.md R26, R27). -/
theorem execWith_keeps_train (h : execWith c i s = .next t) (hi : ∀ p n, i ≠ .waveEnc p n) :
    t.tx.buf = s.tx.buf ∧ t.tx.len = s.tx.len := by
  cases i with
  | waveEnc p n => exact absurd rfl (hi p n)
  | triEnc => rw [(execTriEnc_frame h).1]; exact ⟨rfl, rfl⟩
  | reservedTx op => rw [execReservedTx_frame h]; exact ⟨rfl, rfl⟩
  | waveDec | triDec | reservedRx => rw [execWith_keeps_tx h rfl]; exact ⟨rfl, rfl⟩

/-- No command but `wave.dec` writes RX_TPB (10_state.md R31). -/
theorem execWith_keeps_tpb (h : execWith c i s = .next t) (hi : i ≠ .waveDec) : t.rx.tpb = s.rx.tpb := by
  cases i with
  | waveDec => exact absurd rfl hi
  | triDec => rw [(execTriDec_frame h).1]
  | reservedRx op => rw [execReservedRx_frame h]
  | triEnc | waveEnc | reservedTx => rw [execWith_keeps_rx h rfl]

/-- No command but `tri.dec` writes RX_SYM (10_state.md R32). -/
theorem execWith_keeps_rxSym (h : execWith c i s = .next t) (hi : i ≠ .triDec) : t.rx.sym = s.rx.sym := by
  cases i with
  | triDec => exact absurd rfl hi
  | waveDec => rw [(execWaveDecWith_frame h).1]
  | reservedRx op => rw [execReservedRx_frame h]
  | triEnc | waveEnc | reservedTx => rw [execWith_keeps_rx h rfl]

/-- No command writes the operands TX_SYM, CAP and RX_CAPCNT (10_state.md R25, 42_waveform_decoder.md R139). -/
theorem execWith_keeps_operands (h : execWith c i s = .next t) :
    t.tx.sym = s.tx.sym ∧ t.rx.cap = s.rx.cap ∧ t.rx.capcnt = s.rx.capcnt := by
  cases i with
  | triEnc => rw [(execTriEnc_frame h).1]; exact ⟨rfl, rfl, rfl⟩
  | waveEnc p n => rw [(execWaveEncWith_frame h).1]; exact ⟨rfl, rfl, rfl⟩
  | waveDec => rw [(execWaveDecWith_frame h).1]; exact ⟨rfl, rfl, rfl⟩
  | triDec => rw [(execTriDec_frame h).1]; exact ⟨rfl, rfl, rfl⟩
  | reservedTx op => rw [execReservedTx_frame h]; exact ⟨rfl, rfl, rfl⟩
  | reservedRx op => rw [execReservedRx_frame h]; exact ⟨rfl, rfl, rfl⟩

end Writers

/-! ### Who changes which register in a step

A register, given as a function of the two channels, changes in a step only by a write that serves it. -/

theorem storeRegion_txSym_ne {s : State} {v : Word} {r : Region} (h : (storeRegion s v r).tx.sym ≠ s.tx.sym) :
    r = .txSym0 ∨ r = .txSym1 ∨ r = .txSym2 := by
  cases r with
  | txSym0 => exact .inl rfl
  | txSym1 => exact .inr (.inl rfl)
  | txSym2 => exact .inr (.inr rfl)
  | _ => exact absurd rfl h

theorem storeRegion_cap_ne {s : State} {v : Word} {r : Region} (h : (storeRegion s v r).rx.cap ≠ s.rx.cap) :
    ∃ k, r = .cap k := by
  cases r with
  | cap k => exact ⟨k, rfl⟩
  | _ => exact absurd rfl h

theorem storeRegion_capcnt_ne {s : State} {v : Word} {r : Region}
    (h : (storeRegion s v r).rx.capcnt ≠ s.rx.capcnt) : r = .rxCapcnt := by
  cases r with
  | rxCapcnt => rfl
  | _ => exact absurd rfl h

theorem decode_tx_ne_waveEnc {v : Word} (h : v.toNat % 16 ≠ 2) (p : BitVec 2) (n : BitVec 8) :
    decode .tx v ≠ .waveEnc p n := by
  rcases decodeTx_cases v with ⟨-, e⟩ | ⟨h2, -⟩ | ⟨-, e⟩
  · simp [e]
  · exact absurd h2 h
  · simp [e]

theorem decode_rx_ne_waveDec {v : Word} (h : v.toNat % 16 ≠ 3) : decode .rx v ≠ .waveDec := by
  rcases decodeRx_cases v with ⟨h3, -⟩ | ⟨-, e⟩ | ⟨-, e⟩
  · exact absurd h3 h
  · simp [e]
  · simp [e]

theorem decode_rx_ne_triDec {v : Word} (h : v.toNat % 16 ≠ 4) : decode .rx v ≠ .triDec := by
  rcases decodeRx_cases v with ⟨-, e⟩ | ⟨h4, -⟩ | ⟨-, e⟩
  · simp [e]
  · exact absurd h4 h
  · simp [e]

section Steps
variable {c : Config} {s t : State}

/-- A bus write that changes something of the block runs a command on TX_CMD or on RX_CMD, or stores at the address of a
region (20_memory.md R56, R57). -/
theorem busWriteWith_change_cases {α : Type} (f : TxChannel → RxChannel → α) {addr : Addr} {v : Word}
    (h : busWriteWith c addr 4 v s = .next t) (hne : f t.tx t.rx ≠ f s.tx s.rx) :
    addr = 0x0000 ∧ execWith c (decode .tx v) s = .next t ∨
    addr = 0x0040 ∧ execWith c (decode .rx v) s = .next t ∨
    ∃ r, addr.toNat = r.address ∧ t = storeRegion s v r := by
  rcases busWriteWith_cases c addr 4 v s with ⟨r, -, e⟩ | ⟨hal, hr, e⟩ | ⟨hal, hr, e⟩ | ⟨hal, -, -, e⟩
  · exact nomatch e.symm.trans h
  · exact .inl ⟨BitVec.eq_of_toNat_eq (toNat_eq_region_address hal hr (by decide)), e.symm.trans h⟩
  · exact .inr (.inl ⟨BitVec.eq_of_toNat_eq (toNat_eq_region_address hal hr (by decide)), e.symm.trans h⟩)
  · cases e.symm.trans h
    have hr : region c addr ≠ .reserved := fun hr => hne (by rw [hr]; rfl)
    exact .inr (.inr ⟨_, toNat_eq_region_address hal rfl hr, rfl⟩)

/-- A step that is no reset and changes something of the block serves an agent's write, which makes that change: it runs
a command on TX_CMD or on RX_CMD, or stores at the address of a region (60_exceptions.md R182). -/
theorem stepWith_change_cases {α : Type} (f : TxChannel → RxChannel → α) (h : stepWith c s = .next t)
    (hreset : s.schedule.head? ≠ some .reset) (hne : f t.tx t.rx ≠ f s.tx s.rx) :
    ∃ who addr v s', nextAccess s = some (who, .write addr v) ∧ f t.tx t.rx ≠ f s'.tx s'.rx ∧
      (addr = 0x0000 ∧ execWith c (decode .tx v) s' = .next t ∨
       addr = 0x0040 ∧ execWith c (decode .rx v) s' = .next t ∨
       ∃ r, addr.toNat = r.address ∧ t = storeRegion s' v r) := by
  rcases stepWith_cases c s t h with ⟨rest, hs, -⟩ | ⟨who, addr, v, s', hacc, htx, hrx, -, hw⟩ |
    ⟨-, -, htx, hrx, -⟩
  · exact absurd (by rw [hs]; rfl) hreset
  · rw [← htx, ← hrx] at hne
    exact ⟨who, addr, v, s', hacc, hne, busWriteWith_change_cases f hw hne⟩
  · exact absurd (by rw [htx, hrx]) hne

theorem txStatus_changed (h : stepWith c s = .next t) (hreset : s.schedule.head? ≠ some .reset)
    (hne : t.tx.status ≠ s.tx.status) : ∃ who v, nextAccess s = some (who, .write 0x0000 v) := by
  obtain ⟨who, addr, v, s', hacc, hne, ⟨rfl, -⟩ | ⟨-, hx⟩ | ⟨r, -, rfl⟩⟩ :=
    stepWith_change_cases (fun tx _ => tx.status) h hreset hne
  · exact ⟨who, v, hacc⟩
  · exact absurd (congrArg TxChannel.status (execWith_keeps_tx hx (decode_rx_cmdReg v))) hne
  · exact absurd (storeRegion_txStatus s' v r) hne

theorem rxStatus_changed (h : stepWith c s = .next t) (hreset : s.schedule.head? ≠ some .reset)
    (hne : t.rx.status ≠ s.rx.status) : ∃ who v, nextAccess s = some (who, .write 0x0040 v) := by
  obtain ⟨who, addr, v, s', hacc, hne, ⟨-, hx⟩ | ⟨rfl, -⟩ | ⟨r, -, rfl⟩⟩ :=
    stepWith_change_cases (fun _ rx => rx.status) h hreset hne
  · exact absurd (congrArg RxChannel.status (execWith_keeps_rx hx (decode_tx_cmdReg v))) hne
  · exact ⟨who, v, hacc⟩
  · exact absurd (storeRegion_rxStatus s' v r) hne

/-- TXBUF and TX_LEN change only by `wave.enc` (10_state.md R26, R27). -/
theorem train_changed (h : stepWith c s = .next t) (hreset : s.schedule.head? ≠ some .reset)
    (hne : t.tx.buf ≠ s.tx.buf ∨ t.tx.len ≠ s.tx.len) :
    ∃ who v, nextAccess s = some (who, .write 0x0000 v) ∧ v.toNat % 16 = 2 := by
  have hpair : (t.tx.buf, t.tx.len) ≠ (s.tx.buf, s.tx.len) := fun e =>
    hne.elim (absurd (congrArg Prod.fst e)) (absurd (congrArg Prod.snd e))
  obtain ⟨who, addr, v, s', hacc, hne, ⟨rfl, hx⟩ | ⟨-, hx⟩ | ⟨r, -, rfl⟩⟩ :=
    stepWith_change_cases (fun tx _ => (tx.buf, tx.len)) h hreset hpair
  · refine ⟨who, v, hacc, by_contra fun hv => hne ?_⟩
    obtain ⟨hbuf, hlen⟩ := execWith_keeps_train hx (decode_tx_ne_waveEnc hv)
    exact Prod.ext hbuf hlen
  · exact absurd (congrArg (fun tx => (tx.buf, tx.len)) (execWith_keeps_tx hx (decode_rx_cmdReg v))) hne
  · exact absurd (Prod.ext (storeRegion_buf s' v r) (storeRegion_len s' v r)) hne

/-- RX_TPB changes only by `wave.dec` (10_state.md R31). -/
theorem rxTpb_changed (h : stepWith c s = .next t) (hreset : s.schedule.head? ≠ some .reset)
    (hne : t.rx.tpb ≠ s.rx.tpb) :
    ∃ who v, nextAccess s = some (who, .write 0x0040 v) ∧ v.toNat % 16 = 3 := by
  obtain ⟨who, addr, v, s', hacc, hne, ⟨-, hx⟩ | ⟨rfl, hx⟩ | ⟨r, -, rfl⟩⟩ :=
    stepWith_change_cases (fun _ rx => rx.tpb) h hreset hne
  · exact absurd (congrArg RxChannel.tpb (execWith_keeps_rx hx (decode_tx_cmdReg v))) hne
  · exact ⟨who, v, hacc, by_contra fun hv => hne (execWith_keeps_tpb hx (decode_rx_ne_waveDec hv))⟩
  · exact absurd (storeRegion_tpb s' v r) hne

/-- RX_SYM changes only by `tri.dec` (10_state.md R32). -/
theorem rxSym_changed (h : stepWith c s = .next t) (hreset : s.schedule.head? ≠ some .reset)
    (hne : t.rx.sym ≠ s.rx.sym) :
    ∃ who v, nextAccess s = some (who, .write 0x0040 v) ∧ v.toNat % 16 = 4 := by
  obtain ⟨who, addr, v, s', hacc, hne, ⟨-, hx⟩ | ⟨rfl, hx⟩ | ⟨r, -, rfl⟩⟩ :=
    stepWith_change_cases (fun _ rx => rx.sym) h hreset hne
  · exact absurd (congrArg RxChannel.sym (execWith_keeps_rx hx (decode_tx_cmdReg v))) hne
  · exact ⟨who, v, hacc, by_contra fun hv => hne (execWith_keeps_rxSym hx (decode_rx_ne_triDec hv))⟩
  · exact absurd (storeRegion_rxSym s' v r) hne

/-- An operand register, which no command writes, changes only by the store at the address of its region. -/
theorem operand_changed {α : Type} (f : TxChannel → RxChannel → α)
    (hf : ∀ tx rx tx' rx', tx.sym = tx'.sym → rx.cap = rx'.cap → rx.capcnt = rx'.capcnt → f tx rx = f tx' rx')
    (h : stepWith c s = .next t) (hreset : s.schedule.head? ≠ some .reset) (hne : f t.tx t.rx ≠ f s.tx s.rx) :
    ∃ who addr v s' r, nextAccess s = some (who, .write addr v) ∧ addr.toNat = r.address ∧
      f (storeRegion s' v r).tx (storeRegion s' v r).rx ≠ f s'.tx s'.rx := by
  obtain ⟨who, addr, v, s', hacc, hne, ⟨-, hx⟩ | ⟨-, hx⟩ | ⟨r, haddr, rfl⟩⟩ :=
    stepWith_change_cases f h hreset hne
  · obtain ⟨hsym, hcap, hcnt⟩ := execWith_keeps_operands hx
    exact absurd (hf _ _ _ _ hsym hcap hcnt) hne
  · obtain ⟨hsym, hcap, hcnt⟩ := execWith_keeps_operands hx
    exact absurd (hf _ _ _ _ hsym hcap hcnt) hne
  · exact ⟨who, addr, v, s', r, hacc, haddr, hne⟩

/-- TX_SYM changes only by a bus write to TX_SYM0 to TX_SYM2 (10_state.md R25). -/
theorem txSym_changed (h : stepWith c s = .next t) (hreset : s.schedule.head? ≠ some .reset)
    (hne : t.tx.sym ≠ s.tx.sym) :
    ∃ who a v, nextAccess s = some (who, .write a v) ∧ 0x0010 ≤ a.toNat ∧ a.toNat ≤ 0x0018 := by
  obtain ⟨who, addr, v, s', r, hacc, haddr, hne⟩ :=
    operand_changed (fun tx _ => tx.sym) (fun _ _ _ _ hsym _ _ => hsym) h hreset hne
  refine ⟨who, addr, v, hacc, ?_⟩
  rcases storeRegion_txSym_ne hne with rfl | rfl | rfl <;> rw [haddr] <;> decide

/-- CAP changes only by a bus write to CAP (10_state.md R34, 42_waveform_decoder.md R139). -/
theorem cap_changed (h : stepWith c s = .next t) (hreset : s.schedule.head? ≠ some .reset)
    (hne : t.rx.cap ≠ s.rx.cap) :
    ∃ who a v, nextAccess s = some (who, .write a v) ∧ 0x0080 ≤ a.toNat ∧ a.toNat < 0x00E4 := by
  obtain ⟨who, addr, v, s', r, hacc, haddr, hne⟩ :=
    operand_changed (fun _ rx => rx.cap) (fun _ _ _ _ _ hcap _ => hcap) h hreset hne
  obtain ⟨k, rfl⟩ := storeRegion_cap_ne hne
  have haddr : addr.toNat = 0x80 + 4 * k.val := haddr
  exact ⟨who, addr, v, hacc, by omega, by omega⟩

/-- RX_CAPCNT changes only by a bus write to RX_CAPCNT (10_state.md R33, 42_waveform_decoder.md R139). -/
theorem rxCapcnt_changed (h : stepWith c s = .next t) (hreset : s.schedule.head? ≠ some .reset)
    (hne : t.rx.capcnt ≠ s.rx.capcnt) : ∃ who v, nextAccess s = some (who, .write 0x005C v) := by
  obtain ⟨who, addr, v, s', r, hacc, haddr, hne⟩ :=
    operand_changed (fun _ rx => rx.capcnt) (fun _ _ _ _ _ _ hcnt => hcnt) h hreset hne
  cases storeRegion_capcnt_ne hne
  obtain rfl : addr = 0x005C := BitVec.eq_of_toNat_eq haddr
  exact ⟨who, v, hacc⟩

end Steps

/-- Settles O23: a step changes the block only by a write, and neither a store nor a command of the other channel changes
a STATUS. -/
theorem onlyCommandsChangeStatus : Obligations.OnlyCommandsChangeStatus :=
  fun _ _ h hreset => ⟨txStatus_changed h hreset, rxStatus_changed h hreset⟩

/-- Settles O24: the one writer of each register, register by register. -/
theorem resultRegistersHaveOneWriter : Obligations.ResultRegistersHaveOneWriter :=
  fun _ _ h hreset => ⟨train_changed h hreset, rxTpb_changed h hreset, rxSym_changed h hreset,
    txSym_changed h hreset, cap_changed h hreset, rxCapcnt_changed h hreset⟩

/-! ### The invariant right after reset -/

/-- A TX channel with TX_LEN = 0 holds the empty train (10_state.md R26). -/
theorem holdsTrain_of_len_eq_zero (c : Config) {tx : TxChannel} (h : tx.len = 0) : HoldsTrain c tx :=
  ⟨0, 0, c.profile0, by decide, .inl rfl, by rw [h]; rfl, Nat.zero_le _, rfl⟩

/-- A block at its reset values meets the invariant, whatever its agents do (10_state.md R38). -/
theorem State.InvWith.of_reset {c : Config} {s : State} (htx : s.tx = TxChannel.resetWith c)
    (hrx : s.rx = RxChannel.reset) (hvars : ∀ a, varsRising (s.agents.get a).vars) : s.InvWith c where
  bufferWhole := by rw [Memory.wfWith, htx]; exact List.length_replicate
  txStatus := by rw [htx]; rfl
  rxStatus := by rw [hrx]; rfl
  holdsTrain := holdsTrain_of_len_eq_zero c (by rw [htx]; rfl)
  rxTpb := by rw [hrx]; decide
  rxSym := by rw [hrx]; rfl
  hostVars := hvars

theorem resetWith_inv (c : Config) : (State.resetWith c).InvWith c :=
  .of_reset rfl rfl fun a => by cases a <;> exact .nil

/-- Settles O47: the reset state holds the reset values of the block and no host variable. -/
theorem invariantAtReset : Obligations.InvariantAtReset :=
  ⟨resetWith_inv, resetWith_inv Config.built⟩

/-! ### Every command keeps the invariant -/

section Invariant
variable {c : Config} {s t : State}

/-- The invariant speaks of the two channels and the host variables only. -/
theorem State.InvWith.congr (hs : s.InvWith c) (htx : t.tx = s.tx) (hrx : t.rx = s.rx)
    (hvars : ∀ a, varsRising (t.agents.get a).vars) : t.InvWith c where
  bufferWhole := by rw [Memory.wfWith, htx]; exact hs.bufferWhole
  txStatus := htx ▸ hs.txStatus
  rxStatus := hrx ▸ hs.rxStatus
  holdsTrain := htx ▸ hs.holdsTrain
  rxTpb := hrx ▸ hs.rxTpb
  rxSym := hrx ▸ hs.rxSym
  hostVars := hvars

/-- The end of a TX command keeps the invariant, when TXBUF is whole, TX_STATUS can report the code, and TXBUF holds a
train. -/
theorem State.InvWith.endTx (hs : s.InvWith c) {op : BitVec 4} {e : ErrCode} {tx : TxChannel}
    (hbuf : tx.buf.length = c.txDepth) (hstatus : txStatusLegal (Status.ofCommand op e) = true)
    (htrain : HoldsTrain c tx) : (endTx op e { s with tx := tx }).InvWith c :=
  ⟨hbuf, hstatus, hs.rxStatus, htrain, hs.rxTpb, hs.rxSym, hs.hostVars⟩

/-- The end of an RX command keeps the invariant, when RX_STATUS can report the code, RX_TPB is below 2^15 and RX_SYM
holds symbols. -/
theorem State.InvWith.endRx (hs : s.InvWith c) {op : BitVec 4} {e : ErrCode} {rx : RxChannel}
    (hstatus : rxStatusLegal (Status.ofCommand op e) = true) (htpb : rx.tpb.toNat < 2 ^ 15)
    (hsym : rxSymLegal rx.sym = true) : (endRx op e { s with rx := rx }).InvWith c :=
  ⟨hs.bufferWhole, hs.txStatus, hstatus, hs.holdsTrain, htpb, hsym, hs.hostVars⟩

theorem execTriEnc_inv (hs : s.InvWith c) (h : execTriEnc s = .next t) : t.InvWith c := by
  rcases execTriEnc_cases s with ⟨-, e⟩ | ⟨b, -, e⟩ <;> cases e.symm.trans h
  · exact hs.endTx hs.bufferWhole rfl hs.holdsTrain
  · exact hs.endTx hs.bufferWhole rfl hs.holdsTrain

/-- PSEL selects one of the record's two profiles (41_waveform_encoder.md R110). -/
theorem profileOf_eq_some {psel : BitVec 2} {p : Profile} (h : profileOf c psel = some p) :
    p = c.profile0 ∨ p = c.profile1 := by
  unfold profileOf at h
  split at h
  · exact .inl (Option.some.inj h).symm
  · split at h
    · exact .inr (Option.some.inj h).symm
    · exact nomatch h

/-- A train written over the first entries of a TXBUF it fits in is held there (41_waveform_encoder.md R113). -/
theorem holdsTrain_of_overlay {b : Word} {rep : BitVec 8} {p : Profile} {tx : TxChannel} {buf : List Word}
    (hp : p = c.profile0 ∨ p = c.profile1) (hfit : 25 * rep.toNat ≤ buf.length)
    (hlen : tx.len = BitVec.ofNat 16 (25 * rep.toNat))
    (hbuf : tx.buf = overlay ((train b rep.toNat p).map PulsePair.toWord) buf) : HoldsTrain c tx := by
  have hrep : rep.toNat < 256 := rep.isLt
  have hwords : ((train b rep.toNat p).map PulsePair.toWord).length = 25 * rep.toNat := by simp
  refine ⟨b, rep.toNat, p, by omega, hp, ?_, ?_, ?_⟩
  · rw [hlen, BitVec.toNat_ofNat, Nat.mod_eq_of_lt (by omega)]
  · rwa [hbuf, overlay_length]
  · rw [hbuf, ← hwords]
    exact overlay_take _ _ (by rwa [hwords])

theorem execWaveEncWith_inv {psel : BitVec 2} {rep : BitVec 8} (hs : s.InvWith c)
    (h : execWaveEncWith c psel rep s = .next t) : t.InvWith c := by
  rcases execWaveEncWith_cases c psel rep s with ⟨err, herr, -, e⟩ | ⟨p, hp, hle, e⟩ <;> cases e.symm.trans h
  · refine hs.endTx hs.bufferWhole ?_ (holdsTrain_of_len_eq_zero c rfl)
    rcases herr with rfl | rfl <;> rfl
  · exact hs.endTx ((overlay_length _ _).trans hs.bufferWhole) rfl
      (holdsTrain_of_overlay (profileOf_eq_some hp) (hle.trans hs.bufferWhole.ge) rfl rfl)

/-- The calibration sum of 24 pairs of 16-bit durations gives at most 2^15 - 1 ticks per bit
(42_waveform_decoder.md R136). -/
theorem ticksPerBit_lt (cap : Vector Word 25) : ticksPerBit cap < 2 ^ 15 := by
  have hsum : calibrationSum cap ≤ 24 * (2 * 65535) := by
    have h := List.sum_le_card_nsmul ((dataPairs cap).map fun p => p.active.toNat + p.idle.toNat) (2 * 65535)
      (fun x hx => by
        obtain ⟨p, -, rfl⟩ := List.mem_map.1 hx
        have ha : p.active.toNat < 2 ^ 16 := p.active.isLt
        have hi : p.idle.toNat < 2 ^ 16 := p.idle.isLt
        omega)
    simpa [calibrationSum] using h
  simp only [ticksPerBit, Config.unitsPerBit, Config.nBits]
  omega

theorem execWaveDecWith_inv (hs : s.InvWith c) (h : execWaveDecWith c s = .next t) : t.InvWith c := by
  rcases execWaveDecWith_cases c s with ⟨err, herr, -, e⟩ | ⟨bits, -, -, e⟩ <;> cases e.symm.trans h
  · refine hs.endRx ?_ hs.rxTpb hs.rxSym
    rcases herr with rfl | rfl <;> rfl
  · refine hs.endRx rfl ?_ hs.rxSym
    exact Nat.lt_of_le_of_lt (Nat.mod_le _ _) (ticksPerBit_lt s.rx.cap)

/-- The symbols `tri.dec` writes (40_symbol_codec.md R91). -/
theorem pairToSym_eq_some {p : Bool × Bool} {sym : Byte} (h : pairToSym p = some sym) :
    sym = 0x30 ∨ sym = 0x31 ∨ sym = 0x46 := by
  match p, h with
  | (false, false), h => exact .inl (Option.some.inj h).symm
  | (true, true), h => exact .inr (.inl (Option.some.inj h).symm)
  | (true, false), h => exact .inr (.inr (Option.some.inj h).symm)

/-- A successful `tri.dec` gives twelve symbols of the alphabet (10_state.md R32). -/
theorem triDecode_rxSymLegal {b : Word} {r : SymRegs} (h : triDecode b = .ok r) : rxSymLegal r = true := by
  unfold triDecode at h
  split at h
  · exact nomatch h
  · next syms hsyms =>
    obtain rfl : SymRegs.ofSymbols syms = r := Except.ok.inj h
    have hlen : syms.length = 12 := by simpa using allSome_length hsyms
    have hmem : ∀ sym ∈ syms, sym = 0x30 ∨ sym = 0x31 ∨ sym = 0x46 := by
      intro sym hsym
      have hsome : some sym ∈ syms.map some := List.mem_map_of_mem hsym
      rw [← (allSome_eq_some_iff _ _).1 hsyms] at hsome
      obtain ⟨j, -, hj⟩ := List.mem_map.1 hsome
      exact pairToSym_eq_some hj
    simp only [rxSymLegal, symbols_ofSymbols syms hlen, Bool.or_eq_true, List.all_eq_true, beq_iff_eq]
    exact .inr fun sym hsym => or_assoc.2 (hmem sym hsym)

theorem execTriDec_inv (hs : s.InvWith c) (h : execTriDec s = .next t) : t.InvWith c := by
  rcases execTriDec_cases s with ⟨-, e⟩ | ⟨r, hr, e⟩ <;> cases e.symm.trans h
  · exact hs.endRx rfl hs.rxTpb hs.rxSym
  · exact hs.endRx rfl hs.rxTpb (triDecode_rxSymLegal hr)

/-- TX_STATUS can report ERR_INV_ARGUMENT for a reserved opcode (60_exceptions.md R162). -/
theorem txStatusLegal_reserved (op : BitVec 4) (h : reservedOnTx op = true) :
    txStatusLegal (Status.ofCommand op .invArgument) = true := by
  revert op; decide

/-- RX_STATUS can report ERR_INV_ARGUMENT for a reserved opcode (60_exceptions.md R162). -/
theorem rxStatusLegal_reserved (op : BitVec 4) (h : reservedOnRx op = true) :
    rxStatusLegal (Status.ofCommand op .invArgument) = true := by
  revert op; decide

/-- Every command a word can encode keeps the invariant. -/
theorem execWith_inv {i : Instr} (hi : i.wf = true) (hs : s.InvWith c) (h : execWith c i s = .next t) :
    t.InvWith c := by
  cases i with
  | triEnc => exact execTriEnc_inv hs h
  | waveEnc psel rep => exact execWaveEncWith_inv hs h
  | waveDec => exact execWaveDecWith_inv hs h
  | triDec => exact execTriDec_inv hs h
  | reservedTx op => cases h; exact hs.endTx hs.bufferWhole (txStatusLegal_reserved op hi) hs.holdsTrain
  | reservedRx op => cases h; exact hs.endRx (rxStatusLegal_reserved op hi) hs.rxTpb hs.rxSym

/-! ### Every step keeps the invariant -/

/-- A store touches nothing the invariant speaks of (20_memory.md R56). -/
theorem storeRegion_inv (v : Word) (r : Region) (hs : s.InvWith c) : (storeRegion s v r).InvWith c where
  bufferWhole := storeRegion_memory_wf c s v r hs.bufferWhole
  txStatus := by simpa using hs.txStatus
  rxStatus := by simpa using hs.rxStatus
  holdsTrain := by simpa [HoldsTrain] using hs.holdsTrain
  rxTpb := by simpa using hs.rxTpb
  rxSym := by simpa using hs.rxSym
  hostVars := by simpa using hs.hostVars

theorem busWriteWith_inv {addr : Addr} {size : Nat} {v : Word} (hs : s.InvWith c)
    (h : busWriteWith c addr size v s = .next t) : t.InvWith c := by
  rcases busWriteWith_cases c addr size v s with ⟨r, -, e⟩ | ⟨-, -, e⟩ | ⟨-, -, e⟩ | ⟨-, -, -, e⟩
  · exact nomatch e.symm.trans h
  · exact execWith_inv (decode_wf .tx v) hs (e.symm.trans h)
  · exact execWith_inv (decode_wf .rx v) hs (e.symm.trans h)
  · cases e.symm.trans h; exact storeRegion_inv v _ hs

theorem stepWith_inv (hs : s.InvWith c) (h : stepWith c s = .next t) : t.InvWith c := by
  rcases stepWith_cases c s t h with ⟨rest, -, rfl⟩ | ⟨who, addr, v, s', -, htx, hrx, hvars, hw⟩ |
    ⟨-, -, htx, hrx, hvars⟩
  · exact .of_reset rfl rfl hs.hostVars
  · exact busWriteWith_inv (hs.congr htx hrx fun a => (hvars a).symm ▸ hs.hostVars a) hw
  · refine hs.congr htx hrx fun a => ?_
    rcases hvars a with e | ⟨x, v, e⟩ <;> rw [e]
    · exact hs.hostVars a
    · exact assignVar_rising x v _ (hs.hostVars a)

end Invariant

/-- Settles O48: a step is a reset, a bus write or a step that leaves the block, and each keeps the invariant. -/
theorem stepKeepsInvariant : Obligations.StepKeepsInvariant :=
  ⟨fun _ _ _ => stepWith_inv, fun _ _ => stepWith_inv⟩

end Sys2Proof.Machine

/-! SUPPORT. Proofs of the statements on memory access (20_memory.md): the address map read from a region to its
address, and what a bus read and a bus write do at each address. -/

namespace Sys2Proof.Machine

/-! ### From a region to its address (20_memory.md R51) -/

/-- The regions that stand in the map of a transmit buffer of `depth` entries (20_memory.md R51). -/
def Region.Mapped (depth : Nat) : Region → Prop
  | .txbuf k => k < depth
  | .reserved => False
  | _ => True

/-- What stands at the address of a mapped region is that region; `regionOf_address` is the other direction. -/
theorem regionOf_of_mapped {depth : Nat} {r : Region} (hr : r.Mapped depth) : regionOf depth r.address = r := by
  cases r with
  | cap k => exact regionOf_cap depth k
  | txbuf k => exact regionOf_txbuf depth k hr
  | reserved => exact hr.elim
  | _ => rfl

theorem Region.address_mod_four (r : Region) : r.address % 4 = 0 := by
  cases r with
  | cap k => simp only [address, capBase]; omega
  | txbuf k => simp only [address, txbufBase]; omega
  | _ => rfl

/-- The named registers, CAP and TXBUF stand in four ranges, with the reserved ranges between them. -/
theorem Region.address_ranges {r : Region} (hr : r ≠ .reserved) :
    r.address ≤ 0x0018 ∨ (0x0040 ≤ r.address ∧ r.address ≤ 0x005C) ∨
      (0x0080 ≤ r.address ∧ r.address ≤ 0x00E0) ∨ 0x1000 ≤ r.address := by
  cases r with
  | cap k => simp only [address, capBase]; omega
  | txbuf k => simp only [address, txbufBase]; omega
  | reserved => exact absurd rfl hr
  | _ => decide

/-- CAP[k] is reached by its 16-bit address. -/
theorem toNat_ofNat_cap (k : Fin 25) : (BitVec.ofNat 16 (0x0080 + 4 * k.val)).toNat = (Region.cap k).address :=
  Nat.mod_eq_of_lt (by omega)

/-- TXBUF[k] is reached by its 16-bit address when the record is legal (00_scope.md R3). -/
theorem toNat_ofNat_txbuf {c : Config} (hc : c.Legal) {k : Nat} (hk : k < c.txDepth) :
    (BitVec.ofNat 16 (0x1000 + 4 * k)).toNat = (Region.txbuf k).address := by
  obtain ⟨-, -, -, -, hdepth⟩ := hc
  exact Nat.mod_eq_of_lt (by omega)

section Map
variable {c : Config} {a : Addr}

theorem region_eq_of_mapped {r : Region} (hr : r.Mapped c.txDepth) (ha : a.toNat = r.address) : region c a = r := by
  rw [region, ha, regionOf_of_mapped hr]

/-- The reserved ranges of the map (20_memory.md R51). -/
theorem region_eq_reserved (ha : a.toNat % 4 = 0)
    (hrange : (0x001C ≤ a.toNat ∧ a.toNat ≤ 0x003F) ∨ (0x0060 ≤ a.toNat ∧ a.toNat ≤ 0x007F) ∨
      (0x00E4 ≤ a.toNat ∧ a.toNat ≤ 0x0FFF) ∨ 0x1000 + 4 * c.txDepth ≤ a.toNat) : region c a = .reserved := by
  by_cases hbeyond : 0x1000 + 4 * c.txDepth ≤ a.toNat
  · exact regionOf_beyond c.txDepth a.toNat hbeyond
  · by_contra hr
    have haddr : a.toNat = (region c a).address := regionOf_address c.txDepth a.toNat ha hr
    have hranges := Region.address_ranges hr
    omega

/-- An aligned address of CAP is that of one of its entries (20_memory.md R51). -/
theorem exists_cap_address (ha : a.toNat % 4 = 0) (hlo : 0x0080 ≤ a.toNat) (hhi : a.toNat < 0x00E4) :
    ∃ k : Fin 25, a.toNat = (Region.cap k).address :=
  ⟨⟨(a.toNat - 0x0080) / 4, by omega⟩, by simp only [Region.address, capBase]; omega⟩

/-! ### Accesses at the address of a region (20_memory.md R54 to R57) -/

variable {s : State} {v : Word}

theorem busReadWith_of_mapped (r : Region) (hr : r.Mapped c.txDepth) (ha : a.toNat = r.address) :
    busReadWith c a 4 s = .ok (readRegion s r) := by
  rw [busReadWith_aligned c a s (ha ▸ r.address_mod_four), region_eq_of_mapped hr ha]

/-- A write of an aligned word outside the command registers stores to its region. -/
theorem busWriteWith_of_region {r : Region} (ha : a.toNat % 4 = 0) (hregion : region c a = r)
    (htx : r ≠ .txCmd := by nofun) (hrx : r ≠ .rxCmd := by nofun) :
    busWriteWith c a 4 v s = .next (storeRegion s v r) := by
  subst hregion
  rcases busWriteWith_cases c a 4 v s with ⟨e, he, -⟩ | ⟨-, h, -⟩ | ⟨-, h, -⟩ | ⟨-, -, -, h⟩
  · exact nomatch he.symm.trans ((accessRefusal_eq_none_iff a 4).2 ⟨rfl, ha⟩)
  · exact absurd h htx
  · exact absurd h hrx
  · exact h

theorem busWriteWith_of_mapped (r : Region) (hr : r.Mapped c.txDepth) (ha : a.toNat = r.address)
    (htx : r ≠ .txCmd := by nofun) (hrx : r ≠ .rxCmd := by nofun) :
    busWriteWith c a 4 v s = .next (storeRegion s v r) :=
  busWriteWith_of_region (ha ▸ r.address_mod_four) (region_eq_of_mapped hr ha) htx hrx

/-- Only aligned words are accesses of this bus, and the refusal has one of two names (20_memory.md R54). -/
theorem accessRefusal_of_not_word {size : Nat} (h : size ≠ 4 ∨ a.toNat % 4 ≠ 0) :
    ∃ e : Refusal, (e = .notWordAccess ∨ e = .misalignedAccess) ∧ accessRefusal a size = some e := by
  by_cases hsize : size = 4
  · have hal : a.toNat % 4 ≠ 0 := h.resolve_left (absurd hsize)
    exact ⟨.misalignedAccess, .inr rfl, by simp [accessRefusal, hsize, hal]⟩
  · exact ⟨.notWordAccess, .inl rfl, by simp [accessRefusal, hsize]⟩

end Map

/-! ### What a read returns -/

/-- A STATUS register as a number: LAST_OP in bits 7:4, ERR in bits 3:0 (20_memory.md R55). -/
theorem Status.word_eq_ofNat (st : Status) : st.word = BitVec.ofNat 32 (16 * st.lastOp.toNat + st.err.toNat) := by
  apply BitVec.eq_of_toNat_eq
  have herr : st.err.toNat < 2 ^ 4 := st.err.isLt
  rw [Status.word, BitVec.toNat_setWidth, BitVec.toNat_append, ← Nat.shiftLeft_add_eq_or_of_lt herr, Nat.shiftLeft_eq,
    Nat.mul_comm, BitVec.toNat_ofNat]

/-- What a bus read returns does not depend on the agents (20_memory.md R55). -/
theorem readRegion_withVar (s : State) (who : AgentId) (x : Nat) (v : Word) (r : Region) :
    readRegion (s.withVar who x v) r = readRegion s r := by
  cases r <;> rfl

theorem busReadWith_withVar (c : Config) (s : State) (who : AgentId) (x : Nat) (v : Word) (b : Addr) (n : Nat) :
    busReadWith c b n (s.withVar who x v) = busReadWith c b n s := by
  simp only [busReadWith, memRead, readRegion_withVar]

/-- Settles O9: a read returns what stands at the region of its address; and an agent's read that completes assigns one
of its variables, which no read depends on. -/
theorem readReturnsAddressedRegister : Obligations.ReadReturnsAddressedRegister := by
  intro c hc
  constructor
  · intro s
    rw [← Status.word_eq_ofNat, ← Status.word_eq_ofNat, BitVec.ofNat_toNat, BitVec.ofNat_toNat]
    exact ⟨busReadWith_of_mapped .txCmd trivial rfl, busReadWith_of_mapped .rxCmd trivial rfl,
      busReadWith_of_mapped .txStatus trivial rfl, busReadWith_of_mapped .rxStatus trivial rfl,
      busReadWith_of_mapped .txBits trivial rfl, busReadWith_of_mapped .rxBits trivial rfl,
      busReadWith_of_mapped .txLen trivial rfl, busReadWith_of_mapped .rxTpb trivial rfl,
      busReadWith_of_mapped .txSym0 trivial rfl, busReadWith_of_mapped .txSym1 trivial rfl,
      busReadWith_of_mapped .txSym2 trivial rfl, busReadWith_of_mapped .rxSym0 trivial rfl,
      busReadWith_of_mapped .rxSym1 trivial rfl, busReadWith_of_mapped .rxSym2 trivial rfl,
      busReadWith_of_mapped .rxCapcnt trivial rfl,
      fun k => busReadWith_of_mapped (.cap k) trivial (toNat_ofNat_cap k),
      fun k hk => busReadWith_of_mapped (.txbuf k) hk (toNat_ofNat_txbuf hc hk),
      fun a ha hrange => by rw [busReadWith_aligned c a s ha, region_eq_reserved ha hrange]; rfl⟩
  · intro s t who a size x h
    obtain ⟨-, v, hv, rfl⟩ := agentReadWith_next c who a size x s t h
    exact ⟨rfl, rfl, rfl, busReadWith_withVar c s who x v, v, hv, rfl⟩

/-! ### What a write does -/

/-- Settles O10: a write to a command register runs the command, and every other one stores to the region of its
address, which leaves the state where that region is read-only or reserved. -/
theorem writeActsByRegion : Obligations.WriteActsByRegion := by
  intro c s v hc
  rw [BitVec.ofNat_toNat]
  refine ⟨agentWrite_txCmd c v s, agentWrite_rxCmd c v s,
    busWriteWith_of_mapped .txBits trivial rfl, busWriteWith_of_mapped .rxBits trivial rfl,
    busWriteWith_of_mapped .txSym0 trivial rfl, busWriteWith_of_mapped .txSym1 trivial rfl,
    busWriteWith_of_mapped .txSym2 trivial rfl, busWriteWith_of_mapped .rxCapcnt trivial rfl,
    fun k => busWriteWith_of_mapped (.cap k) trivial (toNat_ofNat_cap k), ?_,
    fun k hk => busWriteWith_of_mapped (.txbuf k) hk (toNat_ofNat_txbuf hc hk), fun a ha hrange => ?_⟩
  · simp only [List.forall_mem_cons]
    exact ⟨busWriteWith_of_mapped .txStatus trivial rfl, busWriteWith_of_mapped .txLen trivial rfl,
      busWriteWith_of_mapped .rxStatus trivial rfl, busWriteWith_of_mapped .rxTpb trivial rfl,
      busWriteWith_of_mapped .rxSym0 trivial rfl, busWriteWith_of_mapped .rxSym1 trivial rfl,
      busWriteWith_of_mapped .rxSym2 trivial rfl, nofun⟩
  · have hregion := region_eq_reserved ha hrange
    exact ⟨by rw [busReadWith_aligned c a s ha, hregion]; rfl, busWriteWith_of_region ha hregion⟩

/-! ### Read after write -/

/-- RX_CAPCNT keeps the low 16 bits of a word (10_state.md R33). -/
theorem setWidth_16_32_eq_and (v : Word) : (v.setWidth 16).setWidth 32 = v &&& 0x0000FFFF := by
  apply BitVec.eq_of_toNat_eq
  have hmask : v.toNat &&& 0x0000FFFF = v.toNat % 2 ^ 16 := Nat.and_two_pow_sub_one_eq_mod v.toNat 16
  have hword : (v &&& 0x0000FFFF).toNat = v.toNat &&& 0x0000FFFF := BitVec.toNat_and v 0x0000FFFF
  rw [hword, hmask, BitVec.toNat_setWidth, BitVec.toNat_setWidth]
  omega

/-- A write outside the command registers that completes is one aligned word and stores to its region. -/
theorem busWrite_next_store {a : Addr} {v : Word} {s t : State} (htx : a.toNat ≠ 0x0000) (hrx : a.toNat ≠ 0x0040)
    (h : busWrite a 4 v s = .next t) : a.toNat % 4 = 0 ∧ t = storeRegion s v (region Config.built a) := by
  rcases busWrite_cases a 4 v s with ⟨r, -, e⟩ | ⟨hal, hr, -⟩ | ⟨hal, hr, -⟩ | ⟨hal, -, -, e⟩
  · exact nomatch e.symm.trans h
  · exact absurd (toNat_eq_region_address hal hr nofun) htx
  · exact absurd (toNat_eq_region_address hal hr nofun) hrx
  · cases e.symm.trans h
    exact ⟨((accessRefusal_eq_none_iff a 4).1 hal).2, rfl⟩

/-- A store at an aligned address shows at no other one: two addresses of one region are both reserved, where a store
changes nothing (20_memory.md R56, R57). -/
theorem readRegion_store_other_address {c : Config} {a b : Addr} (ha : a.toNat % 4 = 0) (hb : b.toNat % 4 = 0)
    (hne : b ≠ a) (s : State) (v : Word) :
    readRegion (storeRegion s v (region c a)) (region c b) = readRegion s (region c b) := by
  by_cases hregion : region c b = region c a
  · have hres : region c a = .reserved := by
      by_contra hr
      exact hne (region_injective c b a hb ha hregion (hregion ▸ hr))
    rw [hres]; rfl
  · exact readRegion_store_other s v _ _ hregion

/-- Settles O11: the write stores to the region of its address, which no other address but a reserved one shares. -/
theorem storeShowsOnlyAtItsAddress : Obligations.StoreShowsOnlyAtItsAddress := by
  intro s t a b v htx hrx hb h
  obtain ⟨ha, rfl⟩ := busWrite_next_store htx hrx h
  have hread (r : Region) (hr : r.Mapped Config.built.txDepth) (haddr : a.toNat = r.address) :
      busRead a 4 (storeRegion s v (region Config.built a)) = .ok (readRegion (storeRegion s v r) r) := by
    rw [busRead, busReadWith_of_mapped r hr haddr, region_eq_of_mapped hr haddr]
  refine ⟨fun hne => ?_, fun hcnt => ?_, ?_⟩
  · simp only [busRead, busReadWith_aligned _ b _ hb, readRegion_store_other_address ha hb hne]
  · rw [hread .rxCapcnt trivial hcnt, ← setWidth_16_32_eq_and]; rfl
  · rintro (haddr | haddr | haddr | haddr | haddr | ⟨hlo, hhi⟩)
    · exact hread .txBits trivial haddr
    · exact hread .txSym0 trivial haddr
    · exact hread .txSym1 trivial haddr
    · exact hread .txSym2 trivial haddr
    · exact hread .rxBits trivial haddr
    · obtain ⟨k, haddr⟩ := exists_cap_address ha hlo hhi
      rw [hread (.cap k) trivial haddr]
      simp [readRegion, storeRegion]

/-! ### Accesses the bus does not serve -/

/-- Settles O12: a bus access is refused exactly as `accessRefusal` says, before anything is read or written. -/
theorem nonWordAccessRefused : Obligations.NonWordAccessRefused := by
  intro s a size v h
  obtain ⟨r, hr, hrefused⟩ := accessRefusal_of_not_word h
  exact ⟨r, hr, by simp only [busRead, busReadWith, hrefused], by simp only [busWrite, busWriteWith, hrefused]⟩

theorem agentWrite_beyond (c : Config) {addr : Nat} (size : Nat) (v : Word) (s : State) (h : 2 ^ 16 ≤ addr) :
    agentWrite c addr size v s = .fault .outsideAddressSpace := if_neg (Nat.not_lt.2 h)

theorem agentReadWith_beyond (c : Config) (who : AgentId) {addr : Nat} (size x : Nat) (s : State)
    (h : 2 ^ 16 ≤ addr) : agentReadWith c who addr size x s = .fault .outsideAddressSpace := if_neg (Nat.not_lt.2 h)

/-- Settles O14: a host operation's access is the agent's bus access at its address. -/
theorem addressBeyondBusFaults : Obligations.AddressBeyondBusFaults :=
  fun s who _ size x value h =>
    ⟨agentWrite_beyond Config.built size (value.eval (s.varsOf who)) s h,
      agentReadWith_beyond Config.built who size x s h⟩

end Sys2Proof.Machine

/-! SUPPORT. Proofs of the statements on encoding (30_encoding.md): the fields of a command word, decoder and encoder as
inverses, the pseudo-instructions, and the steps that run a placed word and deliver a read. -/

namespace Sys2Proof.Machine

/-! ### The fields of a command word (30_encoding.md R70 to R73) -/

section Fields
variable (op : BitVec 4) (psel : BitVec 2) (rep : BitVec 8) (w m : Word)

/-! Each field of a word put together from three fields is read back, bit by bit. -/

@[simp] theorem opField_commandWord : opField (commandWord op psel rep) = op := by
  ext i hi
  interval_cases i <;> simp [opField, commandWord]

@[simp] theorem pselField_commandWord : pselField (commandWord op psel rep) = psel := by
  ext i hi
  interval_cases i <;> simp [pselField, commandWord]

@[simp] theorem repeatField_commandWord : repeatField (commandWord op psel rep) = rep := by
  ext i hi
  interval_cases i <;> simp [repeatField, commandWord]

/-- The word of OP alone: the mask is the bits a command without operands reads (30_encoding.md R78). -/
theorem commandWord_opField : commandWord (opField w) 0 0 = w &&& 0x0000000F := by
  ext i hi
  interval_cases i <;> simp [opField, commandWord]

/-- The word of the three fields: the mask is the bits `wave.enc` reads (30_encoding.md R78). -/
theorem commandWord_fields : commandWord (opField w) (pselField w) (repeatField w) = w &&& 0x0000FF3F := by
  ext i hi
  interval_cases i <;> simp [opField, pselField, repeatField, commandWord]

theorem opField_and : opField (w &&& m) = opField w &&& opField m := BitVec.extractLsb'_and
theorem pselField_and : pselField (w &&& m) = pselField w &&& pselField m := BitVec.extractLsb'_and
theorem repeatField_and : repeatField (w &&& m) = repeatField w &&& repeatField m := BitVec.extractLsb'_and

theorem opField_eq_ofNat : opField w = BitVec.ofNat 4 (w.toNat % 16) := by
  rw [← opField_toNat, BitVec.ofNat_toNat, BitVec.setWidth_eq]

theorem pselField_eq_ofNat : pselField w = BitVec.ofNat 2 (w.toNat / 16 % 4) := by
  apply BitVec.eq_of_toNat_eq
  simp [pselField, Nat.shiftRight_eq_div_pow]

theorem repeatField_eq_ofNat : repeatField w = BitVec.ofNat 8 (w.toNat / 256 % 256) := by
  apply BitVec.eq_of_toNat_eq
  simp [repeatField, Nat.shiftRight_eq_div_pow]

end Fields

/-! ### The opcode maps by the value of OP (30_encoding.md R76, R77) -/

section OpcodeMaps
variable {w : Word}

theorem decode_tx_of_op_eq_one (h : w.toNat % 16 = 1) : decode .tx w = .triEnc := by
  simp [decode, decodeTx, opField_eq_ofNat, h]

theorem decode_tx_of_op_eq_two (h : w.toNat % 16 = 2) : decode .tx w = .waveEnc (pselField w) (repeatField w) := by
  simp [decode, decodeTx, opField_eq_ofNat, h]

theorem decode_rx_of_op_eq_three (h : w.toNat % 16 = 3) : decode .rx w = .waveDec := by
  simp [decode, decodeRx, opField_eq_ofNat, h]

theorem decode_rx_of_op_eq_four (h : w.toNat % 16 = 4) : decode .rx w = .triDec := by
  simp [decode, decodeRx, opField_eq_ofNat, h]

theorem decode_tx_of_op_reserved (h1 : w.toNat % 16 ≠ 1) (h2 : w.toNat % 16 ≠ 2) :
    decode .tx w = .reservedTx (BitVec.ofNat 4 (w.toNat % 16)) := by
  rcases decodeTx_cases w with ⟨h, -⟩ | ⟨h, -⟩ | ⟨-, e⟩
  · exact absurd h h1
  · exact absurd h h2
  · rw [e, opField_eq_ofNat]

theorem decode_rx_of_op_reserved (h3 : w.toNat % 16 ≠ 3) (h4 : w.toNat % 16 ≠ 4) :
    decode .rx w = .reservedRx (BitVec.ofNat 4 (w.toNat % 16)) := by
  rcases decodeRx_cases w with ⟨h, -⟩ | ⟨h, -⟩ | ⟨-, e⟩
  · exact absurd h h3
  · exact absurd h h4
  · rw [e, opField_eq_ofNat]

end OpcodeMaps

/-! ### Decoder and encoder -/

/-- Decoding the word of a well-formed instruction reads its fields back (30_encoding.md R70, R76, R77). -/
theorem decode_encode {i : Instr} (hi : i.wf = true) : decode i.cmdReg (encode i) = i := by
  cases i with
  | triEnc | waveEnc | waveDec | triDec => simp [decode, decodeTx, decodeRx, Instr.cmdReg, encode]
  | reservedTx op =>
    obtain ⟨h1, h2⟩ : op ≠ 1#4 ∧ op ≠ 2#4 := by simpa [Instr.wf, reservedOnTx] using hi
    simp [decode, decodeTx, Instr.cmdReg, encode, h1, h2]
  | reservedRx op =>
    obtain ⟨h3, h4⟩ : op ≠ 3#4 ∧ op ≠ 4#4 := by simpa [Instr.wf, reservedOnRx] using hi
    simp [decode, decodeRx, Instr.cmdReg, encode, h3, h4]

/-- A word is put together again from its byte lanes (20_memory.md R52). -/
theorem wordOfLanes_lanes (w : Word) :
    wordOfLanes (w.extractLsb' 0 8) (w.extractLsb' 8 8) (w.extractLsb' 16 8) (w.extractLsb' 24 8) = w := by
  ext i hi
  interval_cases i <;> simp [wordOfLanes]

theorem decodeBytes_lanes (r : CmdReg) (w : Word) : decodeBytes r (lanes w) = .ok (decode r w) :=
  congrArg (fun v => Except.ok (decode r v)) (wordOfLanes_lanes w)

/-- Settles O1: the fields of an encoded instruction are read back, and the byte lanes are those of its word. -/
theorem decodeOfEncodeIsIdentity : Obligations.DecodeOfEncodeIsIdentity :=
  fun _ hi => ⟨decode_encode hi, by rw [decodeBytes_lanes, decode_encode hi]⟩

theorem decode_cmdReg (r : CmdReg) (w : Word) : (decode r w).cmdReg = r := by
  cases r with
  | tx => exact decode_tx_cmdReg w
  | rx => exact decode_rx_cmdReg w

/-- Encoding what a word decodes to keeps the bits the command reads and clears the others (30_encoding.md R78). -/
theorem encode_decode (r : CmdReg) (w : Word) : encode (decode r w) = w &&& (decode r w).readBits := by
  have hop {n : Nat} (h : w.toNat % 16 = n) : BitVec.ofNat 4 n = opField w := h ▸ (opField_eq_ofNat w).symm
  have hword {n : Nat} (h : w.toNat % 16 = n) : commandWord (BitVec.ofNat 4 n) 0 0 = w &&& 0x0000000F :=
    hop h ▸ commandWord_opField w
  cases r with
  | tx =>
    rcases decodeTx_cases w with ⟨h, e⟩ | ⟨h, e⟩ | ⟨-, e⟩ <;> rw [e]
    · exact hword h
    · exact (congrArg (commandWord · _ _) (hop h)).trans (commandWord_fields w)
    · exact commandWord_opField w
  | rx =>
    rcases decodeRx_cases w with ⟨h, e⟩ | ⟨h, e⟩ | ⟨-, e⟩ <;> rw [e]
    · exact hword h
    · exact hword h
    · exact commandWord_opField w

/-- Settles O2: by the cases of the two opcode maps. -/
theorem encodeOfDecodeKeepsReadBits : Obligations.EncodeOfDecodeKeepsReadBits :=
  fun r w => ⟨decode_wf r w, decode_cmdReg r w, encode_decode r w⟩

/-- Settles O3: each map by the value of OP. -/
theorem opcodeSelectsOperation : Obligations.OpcodeSelectsOperation :=
  fun _ => ⟨decode_tx_of_op_eq_one, fun h => ⟨_, _, decode_tx_of_op_eq_two h⟩, decode_tx_of_op_reserved,
    decode_rx_of_op_eq_three, decode_rx_of_op_eq_four, decode_rx_of_op_reserved⟩

/-- Settles O4: the two fields as numbers. -/
theorem waveEncFieldsAreTheirBits : Obligations.WaveEncFieldsAreTheirBits := by
  intro w h
  rw [decode_tx_of_op_eq_two h, pselField_eq_ofNat, repeatField_eq_ofNat]

/-- Settles O6: each sample is the word of its instruction. -/
theorem sampleWordsDecode : Obligations.SampleWordsDecode :=
  ⟨decode_encode (i := .triEnc) rfl, decode_encode (i := .waveEnc 0 2) rfl, decode_encode (i := .waveEnc 3 255) rfl,
    decode_encode (i := .waveDec) rfl, decode_encode (i := .triDec) rfl, decode_encode (i := .reservedTx 3) rfl,
    decode_encode (i := .reservedRx 1) rfl⟩

/-! ### The bits a command ignores (30_encoding.md R78) -/

theorem busWrite_txCmd (w : Word) (s : State) : busWrite 0x0000 4 w s = exec (decode .tx w) s :=
  (agentWrite_txCmd Config.built w s).trans (execWith_built _ s)

theorem busWrite_rxCmd (w : Word) (s : State) : busWrite 0x0040 4 w s = exec (decode .rx w) s :=
  (agentWrite_rxCmd Config.built w s).trans (execWith_built _ s)

theorem decode_and_fields (r : CmdReg) (w : Word) : decode r (w &&& 0x0000FF3F) = decode r w := by
  have hop : opField (w &&& 0x0000FF3F) = opField w := (opField_and w _).trans BitVec.and_allOnes
  have hpsel : pselField (w &&& 0x0000FF3F) = pselField w := (pselField_and w _).trans BitVec.and_allOnes
  have hrep : repeatField (w &&& 0x0000FF3F) = repeatField w := (repeatField_and w _).trans BitVec.and_allOnes
  cases r <;> simp only [decode, decodeTx, decodeRx, hop, hpsel, hrep]

theorem opField_and_op (w : Word) : opField (w &&& 0x0000000F) = opField w :=
  (opField_and w _).trans BitVec.and_allOnes

theorem decode_rx_and_op (w : Word) : decode .rx (w &&& 0x0000000F) = decode .rx w := by
  simp only [decode, decodeRx, opField_and_op]

theorem decode_tx_and_op {w : Word} (h2 : w.toNat % 16 ≠ 2) : decode .tx (w &&& 0x0000000F) = decode .tx w := by
  have hne : opField w ≠ 0x2 := fun h => h2 (by rw [← opField_toNat, h]; rfl)
  simp only [decode, decodeTx, opField_and_op, hne, if_false]

/-- Settles O5: a write to a command register runs the decoded word, and decoding reads only the fields. -/
theorem ignoredBitsChangeNothing : Obligations.IgnoredBitsChangeNothing := by
  intro s w
  simp only [busWrite_txCmd, busWrite_rxCmd, decode_and_fields, decode_rx_and_op, true_and, and_true]
  exact fun h2 => by rw [decode_tx_and_op h2]

/-- Settles O26: the word decodes to the reserved instruction of its OP, whose one write is the STATUS write. -/
theorem reservedOpcodeSetsOnlyStatus : Obligations.ReservedOpcodeSetsOnlyStatus := by
  intro s w
  refine ⟨fun h1 h2 => ?_, fun h3 h4 => ?_, fun _ => rfl, fun _ => rfl⟩
  · rw [busWrite_txCmd, decode_tx_of_op_reserved h1 h2]; rfl
  · rw [busWrite_rxCmd, decode_rx_of_op_reserved h3 h4]; rfl

/-! ### Pulse pairs and pseudo-instructions (30_encoding.md R74, R83) -/

/-- A word of a pair as a number (30_encoding.md R74). -/
theorem toWord_toNat (p : PulsePair) : p.toWord.toNat = p.idle.toNat * 2 ^ 16 + p.active.toNat := by
  have hidle : p.idle.toNat < 2 ^ 16 := p.idle.isLt
  have hactive : p.active.toNat < 2 ^ 16 := p.active.isLt
  rw [PulsePair.toWord, BitVec.toNat_or, BitVec.toNat_shiftLeft, BitVec.toNat_setWidth, BitVec.toNat_setWidth,
    Nat.shiftLeft_eq, Nat.mod_eq_of_lt (by omega), Nat.mod_eq_of_lt (by omega), Nat.mod_eq_of_lt (by omega),
    ← Nat.shiftLeft_eq, ← Nat.shiftLeft_add_eq_or_of_lt hactive]

/-- Settles O8: the halves of a word, and a pair's word as a number. -/
theorem pulsePairWordFormat : Obligations.PulsePairWordFormat := by
  refine ⟨fun w => ⟨?_, ?_⟩, fun p => ⟨toWord_toNat p, ofWord_toWord p⟩⟩
  · simp [PulsePair.ofWord]
  · have hw : w.toNat / 2 ^ 16 < 2 ^ 16 := by omega
    rw [PulsePair.ofWord, BitVec.extractLsb'_toNat, Nat.shiftRight_eq_div_pow, Nat.mod_eq_of_lt hw]

/-- The word `wave.enc n, p<s>` expands to is the word of the instruction (30_encoding.md R83). -/
theorem expand_waveEnc (n : BitVec 8) (psel : BitVec 2) :
    (Pseudo.waveEnc n psel).expand = [wrWord .txCmd (encode (.waveEnc psel n))] := by
  have hor (a b c : Word) : a ||| b ||| c = c ||| b ||| a := by ac_rfl
  exact congrArg (fun w => [wrWord .txCmd w]) (hor _ _ _)

/-- Twelve characters packed into the symbol registers are the symbols of the code (10_state.md R25). -/
theorem symbolByte_ofSymbols (code : Vector Byte 12) (j : Fin 12) :
    symbolByte (SymRegs.ofSymbols code.toList) j = code[j] := by
  rw [symbolByte_eq_getD _ _ j.isLt, symbols_ofSymbols _ code.length_toList]
  simp

/-- Settles O7: each command's word is the one the encoder gives, `cap` writes the word of the pair, and `sym.tx`
packs the characters as the symbol registers hold them. -/
theorem pseudoInstructionsExpand : Obligations.PseudoInstructionsExpand := by
  refine ⟨⟨_, rfl, decode_encode (i := .triEnc) rfl⟩,
    fun n psel => ⟨_, expand_waveEnc n psel, decode_encode (i := .waveEnc psel n) rfl⟩,
    ⟨_, rfl, decode_encode (i := .waveDec) rfl⟩, ⟨_, rfl, decode_encode (i := .triDec) rfl⟩,
    fun k a d => ⟨_, rfl, ofWord_toWord ⟨a, d⟩⟩, fun _ => rfl,
    fun code => ⟨SymRegs.ofSymbols code.toList, ?_, symbolByte_ofSymbols code⟩⟩
  simp [Pseudo.expand, wrWord, SymRegs.ofSymbols]

/-! ### Steps that run a placed word and deliver a read (30_encoding.md R80, R82) -/

/-- A word written to the command register of a name is run as a command of that register (20_memory.md R56). -/
theorem agentWrite_cmdRef (c : Config) (r : CmdReg) (val : Nat → Word) (v : Word) (s : State) :
    agentWrite c ((cmdRef r).address val) 4 v s = execWith c (decode r v) s := by
  cases r with
  | tx => exact agentWrite_txCmd c v s
  | rx => exact agentWrite_rxCmd c v s

/-- The bus word that the bits of a table word are (30_encoding.md R80). -/
abbrev tableWord (nbits w : Nat) : Word := BitVec.ofNat 32 (w % 2 ^ nbits)

theorem decodeTableWord_eq_decode {nbits : Nat} (w : Nat) (h : nbits ≤ 32) :
    decodeTableWord nbits w = some (decode (tableReg (tableWord nbits w)) (tableWord nbits w)) := by
  rw [decodeTableWord, if_pos h]
  exact congrArg Except.toOption (decodeBytes_lanes _ _)

/-- Taking back what an agent was given to do leaves the state as it was. -/
theorem withTodo_restore (s : State) (a : AgentId) (todo : List HostOp) :
    (s.withTodo a todo).withTodo a (s.agents.get a).todo = s := by
  cases a <;> rfl

/-- The step after the placing of a word runs it in the state before the placing. -/
theorem step_withFetchWord (s : State) (nbits w : Nat) :
    step (s.withFetchWord nbits w) = exec (decode (tableReg (tableWord nbits w)) (tableWord nbits w)) s := by
  have hwrite := stepWith_of_wr Config.built (s := s.withFetchWord nbits w) rfl (withTodo_get _ _ _)
  rw [agentWrite_cmdRef, execWith_built] at hwrite
  exact hwrite.trans (congrArg (exec _) (withTodo_restore s _ _))

/-- Settles O44: the table decoder reads the four byte lanes of the word that the step runs. -/
theorem placedWordIsRun : Obligations.PlacedWordIsRun :=
  fun s nbits w hbits _ => ⟨_, decodeTableWord_eq_decode w hbits, decode_wf _ _, step_withFetchWord s nbits w⟩

/-- The step of an agent whose next operation is a bus read makes that read, with the turn and the operation taken
(30_encoding.md R82). -/
theorem stepWith_of_rd (c : Config) {s : State} {who : AgentId} {rest : List Turn} {reg : RegRef} {size x : Nat}
    {ops : List HostOp} (hsched : s.schedule = .agent who :: rest)
    (htodo : (s.agents.get who).todo = .rd reg size x :: ops) :
    stepWith c s = agentReadWith c who (reg.address (s.varsOf who)) size x
      ({ s with schedule := rest }.withTodo who ops) := by
  simp only [stepWith, hsched, takeTurn, agentTurn, htodo, hostOpWith, varsOf_withTodo, varsOf_schedule]

section Variables
variable (s : State) (a b : AgentId) (x y : Nat) (v : Word) (todo : List HostOp)

@[simp] theorem withTodo_get_other (h : b ≠ a) : (s.withTodo a todo).agents.get b = s.agents.get b :=
  Agents.get_set_other _ _ _ _ h

@[simp] theorem withVar_get_other (h : b ≠ a) : (s.withVar a x v).agents.get b = s.agents.get b :=
  Agents.get_set_other _ _ _ _ h

@[simp] theorem withVar_prog : ((s.withVar a x v).agents.get b).prog = (s.agents.get b).prog := by
  cases a <;> cases b <;> rfl

@[simp] theorem varsOf_withVar_same : (s.withVar a x v).varsOf a x = v := by
  simp [State.varsOf, hostVar, lookup_assignVar_same]

@[simp] theorem varsOf_withVar_other (h : y ≠ x) : (s.withVar a x v).varsOf a y = s.varsOf a y := by
  simp [State.varsOf, hostVar, lookup_assignVar_other _ _ _ _ h]

end Variables

/-- What a bus read returns depends on the block only (20_memory.md R55). -/
theorem readRegion_congr {s t : State} (htx : t.tx = s.tx) (hrx : t.rx = s.rx) (r : Region) :
    readRegion t r = readRegion s r := by
  cases r <;> simp only [readRegion, htx, hrx]

/-- An agent's read of an aligned word assigns what stands at its region (20_memory.md R55). -/
theorem agentReadWith_aligned (c : Config) (who : AgentId) {addr : Nat} (x : Nat) (s : State) (hlt : addr < 2 ^ 16)
    (hal : (BitVec.ofNat 16 addr).toNat % 4 = 0) :
    agentReadWith c who addr 4 x s = .next (s.withVar who x (readRegion s (region c (BitVec.ofNat 16 addr)))) := by
  rw [agentReadWith, if_pos hlt, busReadWith_aligned c _ s hal]

/-- Settles O45: the step is the agent's bus read, which assigns one of its variables, with the turn and the operation
taken. -/
theorem stepDeliversReadValue : Obligations.StepDeliversReadValue := by
  intro s who rest reg x ops hsched htodo hlt haddr
  have hal : (BitVec.ofNat 16 (reg.address (s.varsOf who))).toNat % 4 = 0 := by
    rw [BitVec.toNat_ofNat, Nat.mod_eq_of_lt hlt, haddr]
  have hread := (stepWith_of_rd Config.built hsched htodo).trans (agentReadWith_aligned Config.built who x _ hlt hal)
  refine ⟨_, _, hread, busReadWith_aligned Config.built _ s hal, rfl, rfl, rfl, ?_, ?_, ?_, ?_, ?_⟩
  · simp
  · simp
  · rw [varsOf_withVar_same]
    exact readRegion_congr rfl rfl _
  · intro y hy
    simp [hy]
  · intro other hother
    simp [hother]

end Sys2Proof.Machine

/-! SUPPORT. Proofs of the statements on the symbol codec (40_symbol_codec.md): symbols and pairs one at a time, what
the codec computes over twelve of them, the round trips, and the automaton. -/

namespace Sys2Proof.Machine

/-! ### One symbol and one pair (40_symbol_codec.md R91, R92) -/

section SymbolsAndPairs
variable {c : Byte} {p : Bool × Bool}

/-- The row of a valid character: the high-order bit is set for '1', 'F' and 'f', the low-order bit for '1'. -/
theorem symToPair_of_mem (h : c ∈ [(0x30 : Byte), 0x31, 0x46, 0x66]) :
    symToPair c = some (decide (c ∈ [(0x31 : Byte), 0x46, 0x66]), decide (c = 0x31)) := by
  simp only [List.mem_cons, List.not_mem_nil, or_false] at h
  rcases h with rfl | rfl | rfl | rfl <;> rfl

theorem symToPair_eq_none_iff : symToPair c = none ↔ c ∉ [(0x30 : Byte), 0x31, 0x46, 0x66] := by
  refine ⟨fun h hc => (nomatch h.symm.trans (symToPair_of_mem hc)), fun h => ?_⟩
  obtain ⟨h0, h1, hF, hf⟩ : c ≠ 0x30 ∧ c ≠ 0x31 ∧ c ≠ 0x46 ∧ c ≠ 0x66 := by simpa using h
  rw [symToPair, if_neg h0, if_neg h1, if_neg hF, if_neg hf]

theorem pairToSym_eq_none_iff : pairToSym p = none ↔ p.2 = true ∧ p.1 = false := by
  revert p
  decide

/-- The symbol of a pair by its bits. -/
theorem pairToSym_eq_some_ite {sym : Byte} (h : pairToSym p = some sym) :
    sym = if p.1 then (if p.2 then 0x31 else 0x46) else 0x30 := by
  match p, h with
  | (false, false), h | (true, true), h | (true, false), h => exact (Option.some.inj h).symm

/-- The symbol of a pair has that pair. -/
theorem symToPair_of_pairToSym {sym : Byte} (h : pairToSym p = some sym) : symToPair sym = some p := by
  match p, h with
  | (false, false), h | (true, true), h | (true, false), h => obtain rfl := Option.some.inj h; rfl

/-- The pair of a character has that character, with 'f' written 'F'. -/
theorem pairToSym_of_symToPair (h : symToPair c = some p) : pairToSym p = some (if c = 0x66 then 0x46 else c) := by
  have hmem : c ∈ [(0x30 : Byte), 0x31, 0x46, 0x66] :=
    by_contra fun hc => nomatch (symToPair_eq_none_iff.2 hc).symm.trans h
  simp only [List.mem_cons, List.not_mem_nil, or_false] at hmem
  rcases hmem with rfl | rfl | rfl | rfl <;> (obtain rfl := Option.some.inj h; rfl)

end SymbolsAndPairs

/-! ### The pairs of a pattern (40_symbol_codec.md R90) -/

theorem pairOf_wordOfPairs (l : List (Bool × Bool)) {j : Nat} (hj : j < 12) :
    pairOf (wordOfBits (bitsOfPairs l)) j = l.getD j (false, false) := by
  obtain ⟨hlo, hhi⟩ := bitsOfPairs_getD l j
  have h0 : 2 * j < 32 := by omega
  have h1 : 2 * j + 1 < 32 := by omega
  rw [pairOf, wordOfBits_getLsbD, wordOfBits_getLsbD, hlo, hhi]
  simp [h0, h1]

theorem wordOfPairs_lt {l : List (Bool × Bool)} (h : l.length = 12) :
    (wordOfBits (bitsOfPairs l)).toNat < 2 ^ 24 := by
  have hlt : natOfBits (bitsOfPairs l) < 2 ^ (2 * 12) := h ▸ bitsOfPairs_length l ▸ natOfBits_lt (bitsOfPairs l)
  exact Nat.lt_of_le_of_lt (Nat.mod_le _ _) hlt

theorem pairOf_and_mask (b : Word) {j : Nat} (hj : j < 12) : pairOf (b &&& 0x00FFFFFF) j = pairOf b j := by
  interval_cases j <;> simp [pairOf]

/-- A 24-bit pattern is determined by its twelve pairs. -/
theorem eq_of_pairOf_eq {b b' : Word} (hb : b.toNat < 2 ^ 24) (hb' : b'.toNat < 2 ^ 24)
    (h : ∀ j, j < 12 → pairOf b j = pairOf b' j) : b = b' := by
  apply BitVec.eq_of_getLsbD_eq
  intro i _
  by_cases hi : i < 24
  · obtain ⟨hhi, hlo⟩ := Prod.ext_iff.1 (h (i / 2) (by omega))
    rcases Nat.mod_two_eq_zero_or_one i with hpar | hpar
    · rwa [pairOf, pairOf, show 2 * (i / 2) = i by omega] at hlo
    · rwa [pairOf, pairOf, show 2 * (i / 2) + 1 = i by omega] at hhi
  · have hpow : 2 ^ 24 ≤ 2 ^ i := Nat.pow_le_pow_right (by omega) (by omega)
    rw [BitVec.getLsbD, BitVec.getLsbD, Nat.testBit_lt_two_pow (by omega), Nat.testBit_lt_two_pow (by omega)]

/-! ### What the codec computes over twelve symbols or pairs (40_symbol_codec.md R94, R95) -/

/-- The result made of twelve values, or ERR_INV_CODE_SYM when one is missing. -/
def ofTwelve {α β : Type} (f : Nat → Option α) (k : List α → β) : Except ErrCode β :=
  (allSome ((List.range 12).map f)).elim (.error .invCodeSym) fun l => .ok (k l)

section OfTwelve
variable {α β : Type} {n : Nat} {f : Nat → Option α} {k : List α → β}

theorem allSome_range_eq_some_iff {l : List α} :
    allSome ((List.range n).map f) = some l ↔ l.length = n ∧ ∀ j, j < n → f j = l[j]? := by
  rw [allSome_eq_some_iff]
  constructor
  · intro h
    have hlen : l.length = n := by simpa using (congrArg List.length h).symm
    refine ⟨hlen, fun j hj => ?_⟩
    simpa [hj, hlen] using congrArg (·[j]?) h
  · rintro ⟨rfl, h⟩
    apply List.ext_getElem
    · simp
    · intro j hj _
      have hj : j < l.length := by simpa using hj
      simp [h j hj, hj]

theorem ofTwelve_eq_ok_iff {b : β} :
    ofTwelve f k = .ok b ↔ ∃ l, (l.length = 12 ∧ ∀ j, j < 12 → f j = l[j]?) ∧ k l = b := by
  simp only [ofTwelve, ← allSome_range_eq_some_iff]
  cases allSome ((List.range 12).map f) <;> simp

theorem ofTwelve_eq_error (h : ∃ j, j < 12 ∧ f j = none) : ofTwelve f k = .error .invCodeSym := by
  have hmem : none ∈ (List.range 12).map f := by simpa using h
  rw [ofTwelve, (allSome_eq_none_iff _).2 hmem]
  rfl

theorem exists_ofTwelve_eq_ok (h : ∀ j, j < 12 → f j ≠ none) : ∃ b, ofTwelve f k = .ok b := by
  cases hl : allSome ((List.range 12).map f) with
  | none =>
    obtain ⟨j, hj, hnone⟩ := List.mem_map.1 ((allSome_eq_none_iff _).1 hl)
    exact absurd hnone (h j (List.mem_range.1 hj))
  | some l => exact ⟨k l, by rw [ofTwelve, hl]; rfl⟩

end OfTwelve

section Codec
variable {r : SymRegs} {b : Word}

theorem triEncode_eq_ofTwelve (r : SymRegs) :
    triEncode r = ofTwelve (fun j => symToPair (symbolByte r j)) fun pairs => wordOfBits (bitsOfPairs pairs) := by
  have hsyms : r.symbols.map symToPair = (List.range 12).map fun j => symToPair (symbolByte r j) := by
    rw [symbols_eq_map_symbolByte, List.map_map]
    rfl
  rw [triEncode, ofTwelve, hsyms]
  cases allSome ((List.range 12).map fun j => symToPair (symbolByte r j)) <;> rfl

theorem triDecode_eq_ofTwelve (b : Word) :
    triDecode b = ofTwelve (fun j => pairToSym (pairOf b j)) SymRegs.ofSymbols := by
  rw [triDecode, ofTwelve, Config.nSym]
  cases allSome ((List.range 12).map fun j => pairToSym (pairOf b j)) <;> rfl

/-- `tri.enc` succeeds with the 24-bit pattern that has the pair of every symbol (40_symbol_codec.md R94). -/
theorem triEncode_eq_ok_iff :
    triEncode r = .ok b ↔ b.toNat < 2 ^ 24 ∧ ∀ j, j < 12 → symToPair (symbolByte r j) = some (pairOf b j) := by
  rw [triEncode_eq_ofTwelve, ofTwelve_eq_ok_iff]
  constructor
  · rintro ⟨pairs, ⟨hlen, hpairs⟩, rfl⟩
    refine ⟨wordOfPairs_lt hlen, fun j hj => ?_⟩
    rw [hpairs j hj, pairOf_wordOfPairs pairs hj]
    simp [hlen, hj]
  · rintro ⟨hlt, hpairs⟩
    have hlen : ((List.range 12).map (pairOf b)).length = 12 := by simp
    refine ⟨(List.range 12).map (pairOf b), ⟨hlen, fun j hj => ?_⟩, ?_⟩
    · simp [hpairs j hj, hj]
    · refine eq_of_pairOf_eq (wordOfPairs_lt hlen) hlt fun j hj => ?_
      rw [pairOf_wordOfPairs _ hj]
      simp [hj]

/-- A successful `tri.dec` gives the symbol of every pair (40_symbol_codec.md R95). -/
theorem pairToSym_of_triDecode (h : triDecode b = .ok r) {j : Nat} (hj : j < 12) :
    pairToSym (pairOf b j) = some (symbolByte r j) := by
  rw [triDecode_eq_ofTwelve, ofTwelve_eq_ok_iff] at h
  obtain ⟨syms, ⟨hlen, hsyms⟩, rfl⟩ := h
  rw [hsyms j hj, symbolByte_eq_getD _ _ hj, symbols_ofSymbols syms hlen]
  simp [hlen, hj]

theorem exists_triEncode_eq_ok (h : ∀ j, j < 12 → symbolByte r j ∈ [(0x30 : Byte), 0x31, 0x46, 0x66]) :
    ∃ b, triEncode r = .ok b := by
  rw [triEncode_eq_ofTwelve]
  exact exists_ofTwelve_eq_ok fun j hj hnone => symToPair_eq_none_iff.1 hnone (h j hj)

theorem triEncode_eq_error {j : Nat} (hj : j < 12) (h : symbolByte r j ∉ [(0x30 : Byte), 0x31, 0x46, 0x66]) :
    triEncode r = .error .invCodeSym := by
  rw [triEncode_eq_ofTwelve]
  exact ofTwelve_eq_error ⟨j, hj, symToPair_eq_none_iff.2 h⟩

theorem exists_triDecode_eq_ok (h : ∀ j, j < 12 → b.getLsbD (2 * j) = true → b.getLsbD (2 * j + 1) = true) :
    ∃ r, triDecode b = .ok r := by
  rw [triDecode_eq_ofTwelve]
  refine exists_ofTwelve_eq_ok fun j hj hnone => ?_
  obtain ⟨hlo, hhi⟩ := pairToSym_eq_none_iff.1 hnone
  exact Bool.false_ne_true (hhi.symm.trans (h j hj hlo))

theorem triDecode_eq_error {j : Nat} (hj : j < 12) (hlo : b.getLsbD (2 * j) = true)
    (hhi : b.getLsbD (2 * j + 1) = false) : triDecode b = .error .invCodeSym := by
  rw [triDecode_eq_ofTwelve]
  exact ofTwelve_eq_error ⟨j, hj, pairToSym_eq_none_iff.2 ⟨hlo, hhi⟩⟩

/-! ### The round trips (40_symbol_codec.md R96) -/

/-- What `tri.enc` gives, `tri.dec` decodes to the code with 'f' written 'F'. -/
theorem triDecode_of_triEncode (h : triEncode r = .ok b) :
    ∃ r', triDecode b = .ok r' ∧
      ∀ j, j < 12 → symbolByte r' j = if symbolByte r j = 0x66 then 0x46 else symbolByte r j := by
  have hsym : ∀ j, j < 12 →
      pairToSym (pairOf b j) = some (if symbolByte r j = 0x66 then 0x46 else symbolByte r j) :=
    fun j hj => pairToSym_of_symToPair ((triEncode_eq_ok_iff.1 h).2 j hj)
  have hok : ∃ r', triDecode b = .ok r' := by
    rw [triDecode_eq_ofTwelve]
    exact exists_ofTwelve_eq_ok fun j hj hnone => nomatch hnone.symm.trans (hsym j hj)
  obtain ⟨r', hr'⟩ := hok
  exact ⟨r', hr', fun j hj => Option.some.inj ((pairToSym_of_triDecode hr' hj).symm.trans (hsym j hj))⟩

/-- What `tri.dec` gives, `tri.enc` encodes to bits 23:0 of the pattern. -/
theorem triEncode_of_triDecode (h : triDecode b = .ok r) : triEncode r = .ok (b &&& 0x00FFFFFF) := by
  refine triEncode_eq_ok_iff.2 ⟨?_, fun j hj => ?_⟩
  · have hle : (b &&& 0x00FFFFFF).toNat ≤ 0x00FFFFFF := Nat.and_le_right
    omega
  · rw [pairOf_and_mask b hj]
    exact symToPair_of_pairToSym (pairToSym_of_triDecode h hj)

end Codec

/-! ### The commands -/

section Commands
variable {s : State}

theorem exec_triEnc_of_ok {b : Word} (h : triEncode s.tx.sym = .ok b) :
    exec .triEnc s = .next { s with tx := { s.tx with status := ⟨0, 1⟩, bits := b } } := by
  rw [exec, execTriEnc, h]
  rfl

theorem exec_triEnc_of_error (h : triEncode s.tx.sym = .error .invCodeSym) :
    exec .triEnc s = .next { s with tx := { s.tx with status := ⟨5, 1⟩ } } := by
  rw [exec, execTriEnc, h]
  rfl

theorem exec_triDec_of_ok {r : SymRegs} (h : triDecode s.rx.bits = .ok r) :
    exec .triDec s = .next { s with rx := { s.rx with status := ⟨0, 4⟩, sym := r } } := by
  rw [exec, execTriDec, h]
  rfl

theorem exec_triDec_of_error (h : triDecode s.rx.bits = .error .invCodeSym) :
    exec .triDec s = .next { s with rx := { s.rx with status := ⟨5, 4⟩ } } := by
  rw [exec, execTriDec, h]
  rfl

/-- A `tri.enc` that reports OK wrote the pattern of the code. -/
theorem triEncode_of_exec_ok {t : State} (h : exec .triEnc s = .next t) (herr : t.tx.status.err = 0) :
    triEncode s.tx.sym = .ok t.tx.bits := by
  rcases execTriEnc_cases s with ⟨-, e⟩ | ⟨b, hb, e⟩ <;> cases e.symm.trans h
  · exact nomatch (ErrCode.code_eq_zero_iff .invCodeSym).1 herr
  · exact hb

end Commands

/-- Settles O31: by the round trips of the codec's two functions. -/
theorem symbolCodecRoundTrip : Obligations.SymbolCodecRoundTrip := by
  refine ⟨fun s u hvalid => ?_, fun s u hno01 => ?_⟩
  · obtain ⟨b, hb⟩ := exists_triEncode_eq_ok hvalid
    refine ⟨_, exec_triEnc_of_ok hb, rfl, fun hu => ?_⟩
    obtain ⟨r, hr, hsym⟩ := triDecode_of_triEncode hb
    exact ⟨_, exec_triDec_of_ok (hu ▸ hr), rfl, hsym⟩
  · obtain ⟨r, hr⟩ := exists_triDecode_eq_ok hno01
    refine ⟨_, exec_triDec_of_ok hr, rfl, fun hu => ?_⟩
    have hb : triEncode u.tx.sym = .ok (s.rx.bits &&& 0x00FFFFFF) := hu ▸ triEncode_of_triDecode hr
    exact ⟨_, exec_triEnc_of_ok hb, rfl, rfl⟩

/-- Settles O28: the pattern's pairs are the rows of the symbols, and an invalid character has no row. -/
theorem triEncSetsPairsOfSymbols : Obligations.TriEncSetsPairsOfSymbols := by
  intro s
  refine ⟨fun hvalid => ?_, fun j hj hinvalid => exec_triEnc_of_error (triEncode_eq_error hj hinvalid),
    fun w hop => by rw [busWrite_txCmd, decode_tx_of_op_eq_one hop]⟩
  obtain ⟨b, hb⟩ := exists_triEncode_eq_ok hvalid
  obtain ⟨hlt, hpairs⟩ := triEncode_eq_ok_iff.1 hb
  refine ⟨b, exec_triEnc_of_ok hb, fun j hj => ?_, hlt⟩
  have hpair : (decide _, decide _) = pairOf b j :=
    Option.some.inj ((symToPair_of_mem (hvalid j hj)).symm.trans (hpairs j hj))
  obtain ⟨hhi, hlo⟩ := Prod.ext_iff.1 hpair
  exact ⟨(Bool.eq_iff_iff.1 hhi.symm).trans decide_eq_true_iff,
    (Bool.eq_iff_iff.1 hlo.symm).trans decide_eq_true_iff⟩

/-- Settles O29: every symbol written is the symbol of its pair, and the pair 01 has none. -/
theorem triDecWritesSymbolsOfPairs : Obligations.TriDecWritesSymbolsOfPairs := by
  intro s
  refine ⟨fun hno01 => ?_, fun j hj hlo hhi => exec_triDec_of_error (triDecode_eq_error hj hlo hhi),
    fun w hop => by rw [busWrite_rxCmd, decode_rx_of_op_eq_four hop]⟩
  obtain ⟨r, hr⟩ := exists_triDecode_eq_ok hno01
  exact ⟨r, exec_triDec_of_ok hr, fun j hj => pairToSym_eq_some_ite (pairToSym_of_triDecode hr hj)⟩

/-- Settles O32: a successful `tri.enc` leaves pairs of symbols only, and a pattern with no pair 01 is the output for
the code that `tri.dec` gives of it. -/
theorem triEncOutputsHaveNoPair01 : Obligations.TriEncOutputsHaveNoPair01 := by
  intro b
  constructor
  · rintro ⟨s, t, hexec, herr, rfl⟩
    obtain ⟨hlt, hpairs⟩ := triEncode_eq_ok_iff.1 (triEncode_of_exec_ok hexec herr)
    refine ⟨hlt, fun j hj hlo => Bool.of_not_eq_false fun hhi => ?_⟩
    have hnone : pairToSym (pairOf t.tx.bits j) = none := pairToSym_eq_none_iff.2 ⟨hlo, hhi⟩
    exact nomatch hnone.symm.trans (pairToSym_of_symToPair (hpairs j hj))
  · rintro ⟨hlt, hno01⟩
    obtain ⟨r, hr⟩ := exists_triDecode_eq_ok hno01
    have hmask : b &&& 0x00FFFFFF = b := eq_of_pairOf_eq (triEncode_eq_ok_iff.1 (triEncode_of_triDecode hr)).1 hlt
      fun j hj => pairOf_and_mask b hj
    have hb : triEncode r = .ok b := hmask ▸ triEncode_of_triDecode hr
    exact ⟨{ State.reset with tx := { State.reset.tx with sym := r } }, _, exec_triEnc_of_ok hb, rfl, rfl⟩

/-! ### The two-state automaton (40_symbol_codec.md R93) -/

/-- Two steps of the automaton from state A read one pair as the table does. -/
theorem triAutomatonRun_pair (p : Bool × Bool) (bits : List Bool) :
    triAutomatonRun .a (p.1 :: p.2 :: bits) =
      (pairToSym p).elim (.error .invCodeSym) fun sym => (triAutomatonRun .a bits).map (sym :: ·) := by
  match p with
  | (false, false) | (false, true) | (true, false) | (true, true) => rfl

/-- The automaton over a list of pairs emits the symbols of the table, or fails with it. -/
theorem triAutomatonRun_flatMap_pairs {ι : Type} (p : ι → Bool × Bool) (l : List ι) :
    triAutomatonRun .a (l.flatMap fun j => [(p j).1, (p j).2]) =
      (allSome (l.map fun j => pairToSym (p j))).elim (.error .invCodeSym) .ok := by
  induction l with
  | nil => rfl
  | cons j l ih =>
    simp only [List.flatMap_cons, List.cons_append, List.nil_append, triAutomatonRun_pair, ih, List.map_cons]
    cases pairToSym (p j) with
    | none => rfl
    | some sym => cases hl : allSome (l.map fun j => pairToSym (p j)) <;> simp [allSome, hl, Except.map]

/-- Settles O30: pair by pair, by induction on the pairs. -/
theorem automatonDecodesAsTable : Obligations.AutomatonDecodesAsTable := by
  intro b
  rw [triReadOrder, triAutomatonRun_flatMap_pairs, triDecode_eq_ofTwelve, ofTwelve, Config.nSym]
  cases allSome ((List.range 12).map fun j => pairToSym (pairOf b j)) <;> rfl

end Sys2Proof.Machine

/-! SUPPORT. Proofs of the statements on the waveform encoder (41_waveform_encoder.md): the profile PSEL selects, the
words of a train written to TXBUF, and the three ways `wave.enc` ends. -/

namespace Sys2Proof.Machine

/-! ### The profile PSEL selects (41_waveform_encoder.md R110) -/

section Profiles
variable {c : Config} {psel : BitVec 2} {p : Profile}

theorem psel_cases (psel : BitVec 2) : psel = 0 ∨ psel = 1 ∨ psel = 2 ∨ psel = 3 := by
  revert psel
  decide

theorem profileOf_eq_some_iff :
    profileOf c psel = some p ↔ psel = 0 ∧ p = c.profile0 ∨ psel = 1 ∧ p = c.profile1 := by
  rcases psel_cases psel with rfl | rfl | rfl | rfl <;> simp [profileOf, eq_comm]

theorem profileOf_eq_none_iff : profileOf c psel = none ↔ psel = 2 ∨ psel = 3 := by
  rcases psel_cases psel with rfl | rfl | rfl | rfl <;> simp [profileOf]

end Profiles

/-! ### A train written over TXBUF (41_waveform_encoder.md R111, R112) -/

section WrittenTrain
variable {b : Word} {n r : Nat} {p : Profile} {buf : List Word}

/-- The words of TXBUF after a train was written over its first entries (41_waveform_encoder.md R113). -/
def withTrain (b : Word) (n : Nat) (p : Profile) (buf : List Word) : List Word :=
  overlay ((train b n p).map PulsePair.toWord) buf

@[simp] theorem withTrain_length : (withTrain b n p buf).length = buf.length := overlay_length _ _

theorem withTrain_getD_beyond {k : Nat} (hk : 25 * n ≤ k) : (withTrain b n p buf).getD k 0 = buf.getD k 0 :=
  overlay_getD_of_length_le (by simpa using hk)

/-- Entry 25·r + e of TXBUF is the word of element e of the frame. -/
theorem withTrain_getD (hfit : 25 * n ≤ buf.length) (hr : r < n) {e : Nat} (he : e < 25) {pair : PulsePair}
    (hpair : (frame b p)[e]? = some pair) : (withTrain b n p buf).getD (25 * r + e) 0 = pair.toWord := by
  have hwords : ((train b n p).map PulsePair.toWord).length = 25 * n := by simp
  have hlt : 25 * r + e < 25 * n := by omega
  rw [withTrain, overlay_getD _ _ _ (hwords ▸ hfit), hwords, if_pos hlt, List.getD_eq_getElem?_getD,
    List.getElem?_map, train_getElem? b n p r e hr he, hpair]
  rfl

theorem withTrain_getD_sync (hfit : 25 * n ≤ buf.length) (hr : r < n) :
    (withTrain b n p buf).getD (25 * r) 0 = p.sync.toWord :=
  withTrain_getD hfit hr (by decide) (frame_getElem?_sync b p)

theorem withTrain_getD_bit (hfit : 25 * n ≤ buf.length) (hr : r < n) {i : Nat} (hi : i < 24) :
    (withTrain b n p buf).getD (25 * r + 1 + i) 0 = if b.getLsbD i then p.high.toWord else p.low.toWord := by
  rw [Nat.add_assoc, withTrain_getD hfit hr (by omega) (frame_getElem?_bit b p i hi)]
  exact apply_ite PulsePair.toWord _ _ _

end WrittenTrain

/-! ### The three ways `wave.enc` ends (41_waveform_encoder.md R113, R114) -/

section WaveEnc
variable {c : Config} {psel : BitVec 2} {rep : BitVec 8} {p : Profile} {s : State}

theorem execWaveEncWith_of_fits (hp : profileOf c psel = some p) (hfit : 25 * rep.toNat ≤ c.txDepth) :
    execWaveEncWith c psel rep s = .next { s with tx :=
      { s.tx with
        status := ⟨0, 2⟩
        len := BitVec.ofNat 16 (25 * rep.toNat)
        buf := withTrain s.tx.bits rep.toNat p s.tx.buf } } := by
  rw [execWaveEncWith, waveEncode, hp]
  simp only [if_neg (Nat.not_lt.2 hfit)]
  rfl

theorem execWaveEncWith_of_no_profile (hp : profileOf c psel = none) :
    execWaveEncWith c psel rep s = .next { s with tx := { s.tx with status := ⟨2, 2⟩, len := 0 } } := by
  rw [execWaveEncWith, waveEncode, hp]
  rfl

theorem execWaveEncWith_of_not_fits (hp : profileOf c psel = some p) (hbig : c.txDepth < 25 * rep.toNat) :
    execWaveEncWith c psel rep s = .next { s with tx := { s.tx with status := ⟨3, 2⟩, len := 0 } } := by
  rw [execWaveEncWith, waveEncode, hp]
  simp only [if_pos hbig]
  rfl

/-- A word with OP 2 written to TX_CMD runs `wave.enc` with its PSEL and REPEAT (30_encoding.md R72, R73, R76). -/
theorem busWrite_txCmd_of_op_eq_two {w : Word} (hop : w.toNat % 16 = 2) :
    busWrite 0x0000 4 w s = execWaveEncWith Config.built
      (BitVec.ofNat 2 (w.toNat / 16 % 4)) (BitVec.ofNat 8 (w.toNat / 256 % 256)) s := by
  rw [busWrite_txCmd, decode_tx_of_op_eq_two hop, pselField_eq_ofNat, repeatField_eq_ofNat]
  rfl

end WaveEnc

/-- Settles O33: by the three ways `wave.enc` ends, and the entries of a written train. -/
theorem waveEncWritesTrain : Obligations.WaveEncWritesTrain := by
  intro c psel rep s hwhole
  refine ⟨fun p hp hfit => ?_, fun hpsel => execWaveEncWith_of_no_profile (profileOf_eq_none_iff.2 hpsel),
    fun hpsel hbig => ?_, fun _ => busWrite_txCmd_of_op_eq_two⟩
  · have hbuf : 25 * rep.toNat ≤ s.tx.buf.length := hwhole ▸ hfit
    exact ⟨_, execWaveEncWith_of_fits (profileOf_eq_some_iff.2 hp) hfit, withTrain_length.trans hwhole,
      fun r hr => ⟨withTrain_getD_sync hbuf hr, fun i hi => withTrain_getD_bit hbuf hr hi⟩,
      fun k hk => withTrain_getD_beyond hk⟩
  · have hprofile : ∃ p, profileOf c psel = some p :=
      hpsel.elim (fun h => ⟨_, profileOf_eq_some_iff.2 (.inl ⟨h, rfl⟩)⟩)
        fun h => ⟨_, profileOf_eq_some_iff.2 (.inr ⟨h, rfl⟩)⟩
    obtain ⟨p, hp⟩ := hprofile
    exact execWaveEncWith_of_not_fits hp hbig

/-! ### The machine's own profile 0 (41_waveform_encoder.md R110) -/

theorem built_high0_toWord : Config.built.profile0.high.toWord = 0x03700148 := by decide

theorem built_low0_toWord : Config.built.profile0.low.toWord = 0x01480370 := by decide

/-- Settles O34: ten frames fit in 256 entries, so it is the completing case of O33 at the default record. -/
theorem waveEncCompletesOnTheMachine : Obligations.WaveEncCompletesOnTheMachine := by
  intro psel rep p s hwf hp hrep
  have hdepth : Config.built.txDepth = 256 := rfl
  obtain ⟨hcompletes, -⟩ := waveEncWritesTrain Config.built psel rep s hwf
  obtain ⟨buf, hexec, hlen, hframes, hrest⟩ := hcompletes p hp (by omega)
  refine ⟨buf, hexec, hlen, hrest, fun r hr => ?_⟩
  obtain ⟨hsync, hbits⟩ := hframes r hr
  refine ⟨hsync, hbits, fun hpsel i hi => ?_⟩
  subst hpsel
  obtain ⟨-, rfl⟩ | ⟨h, -⟩ := hp
  · rw [hbits i hi, built_high0_toWord, built_low0_toWord]
  · exact absurd h (by decide)

end Sys2Proof.Machine

/-! SUPPORT. Proofs of the statements on the waveform decoder (42_waveform_decoder.md): the windows and the shapes, the
three ways `wave.dec` ends, the calibration, the ideal channel, and the round trips. -/

namespace Sys2Proof.Machine

/-! ### Windows, shapes and the classified bit (42_waveform_decoder.md R130 to R132) -/

section Shapes
variable {c : Config} {p : PulsePair}

/-- A window over the integers (42_waveform_decoder.md R130). -/
theorem inWin_iff {x : Dur} {w : Window} :
    inWin x w = true ↔
      (w.center : Int) - (w.spread : Int) < (x.toNat : Int) ∧ (x.toNat : Int) ≤ (w.center : Int) + (w.spread : Int) := by
  simp only [inWin, Bool.and_eq_true, decide_eq_true_eq]
  omega

theorem highShape_iff : highShape c p = true ↔ inWin p.active c.winShort = true ∧ inWin p.idle c.winLong = true :=
  Bool.and_eq_true_iff

theorem lowShape_iff : lowShape c p = true ↔ inWin p.active c.winLong = true ∧ inWin p.idle c.winShort = true :=
  Bool.and_eq_true_iff

/-- A pair of exactly one shape is the bit of that shape (42_waveform_decoder.md R132). -/
theorem classify_of_one_shape (h : highShape c p ≠ lowShape c p) : classify c p = some (highShape c p) := by
  cases hh : highShape c p with
  | true =>
    have hl : lowShape c p = false := Bool.eq_false_of_not_eq_true fun hl => h (hh.trans hl.symm)
    simp only [classify, hh, hl]
  | false =>
    have hl : lowShape c p = true := Bool.of_not_eq_false fun hl => h (hh.trans hl.symm)
    simp only [classify, hh, hl]

theorem classify_of_no_shape (hh : highShape c p = false) (hl : lowShape c p = false) : classify c p = none := by
  simp only [classify, hh, hl]

theorem classify_of_both_reject (hh : highShape c p = true) (hl : lowShape c p = true)
    (hpolicy : c.ambigPolicy = .reject) : classify c p = none := by
  simp only [classify, hh, hl, hpolicy]

theorem classify_of_both_highFirst (hh : highShape c p = true) (hl : lowShape c p = true)
    (hpolicy : c.ambigPolicy = .highFirst) : classify c p = some true := by
  simp only [classify, hh, hl, hpolicy]

/-- Under HIGH_FIRST a pair with a shape is 1 exactly when it has the HIGH shape (42_waveform_decoder.md R132). -/
theorem classify_of_shape_highFirst (h : highShape c p = true ∨ lowShape c p = true)
    (hpolicy : c.ambigPolicy = .highFirst) : classify c p = some (highShape c p) := by
  by_cases heq : highShape c p = lowShape c p
  · have hh : highShape c p = true := h.elim id heq.trans
    rw [hh, classify_of_both_highFirst hh (heq.symm.trans hh) hpolicy]
  · exact classify_of_one_shape heq

theorem shape_of_classify_ne_none (h : classify c p ≠ none) : highShape c p = true ∨ lowShape c p = true := by
  by_contra hno
  obtain ⟨hh, hl⟩ := not_or.1 hno
  exact h (classify_of_no_shape (Bool.eq_false_of_not_eq_true hh) (Bool.eq_false_of_not_eq_true hl))

/-- The pulses of a profile the round trip allows are read as the bits they stand for (00_scope.md R4). -/
theorem classify_of_roundTripProfile {prof : Profile} (h : RoundTripProfile c prof) (v : Bool) :
    classify c (if v then prof.high else prof.low) = some v := by
  obtain ⟨hhigh, hhigh', hlow, hlow', -, -⟩ := h
  cases v
  · simpa [hlow'] using classify_of_one_shape (c := c) (p := prof.low) (by simp [hlow, hlow'])
  · simpa [hhigh] using classify_of_one_shape (c := c) (p := prof.high) (by simp [hhigh, hhigh'])

end Shapes

/-- The default window for a short duration (42_waveform_decoder.md R130). -/
theorem inWin_built_winShort (x : Dur) :
    inWin x Config.built.winShort = true ↔ 29 ≤ x.toNat ∧ x.toNat ≤ 628 := by
  have hcenter : Config.built.winShort.center = 328 := rfl
  have hspread : Config.built.winShort.spread = 300 := rfl
  rw [inWin_iff, hcenter, hspread]
  omega

/-- The default window for a long duration (42_waveform_decoder.md R130). -/
theorem inWin_built_winLong (x : Dur) :
    inWin x Config.built.winLong = true ↔ 531 ≤ x.toNat ∧ x.toNat ≤ 1230 := by
  have hcenter : Config.built.winLong.center = 880 := rfl
  have hspread : Config.built.winLong.spread = 350 := rfl
  rw [inWin_iff, hcenter, hspread]
  omega

/-- Settles O35: the integer windows are the model's, and each case of R132 is one lemma on the shapes. -/
theorem pairsClassifyByWindows : Obligations.PairsClassifyByWindows := by
  refine ⟨fun c p => ?_, fun x => ⟨inWin_built_winShort x, inWin_built_winLong x⟩⟩
  simp only [← inWin_iff, ← highShape_iff, ← lowShape_iff, Bool.not_eq_true]
  refine ⟨fun hh hl => ?_, fun hl hh => ?_, classify_of_no_shape, classify_of_both_reject,
    classify_of_both_highFirst⟩
  · rw [classify_of_one_shape (by simp [hh, hl]), hh]
  · rw [classify_of_one_shape (by simp [hh, hl]), hh]

/-! ### The capture's data pairs and frame (42_waveform_decoder.md R133, R140) -/

section Capture
variable {c : Config} {cap : Vector Word 25}

theorem dataPairs_eq_ofFn (cap : Vector Word 25) :
    dataPairs cap = List.ofFn fun i : Fin 24 => PulsePair.ofWord cap[i.val] := by
  apply List.ext_getElem
  · simp
  · intro i h _
    have hi : i < 24 := by simpa using h
    rw [dataPairs_getElem cap i hi, List.getElem_ofFn]

theorem forall_mem_dataPairs_iff {P : PulsePair → Prop} :
    (∀ p ∈ dataPairs cap, P p) ↔ ∀ i : Fin 24, P (PulsePair.ofWord cap[i.val]) := by
  rw [dataPairs_eq_ofFn, List.forall_mem_ofFn_iff]

theorem ofWord_mem_dataPairs (i : Fin 24) : PulsePair.ofWord cap[i.val] ∈ dataPairs cap :=
  forall_mem_dataPairs_iff.1 (fun _ hp => hp) i

theorem frameOk_iff {rx : RxChannel} :
    frameOk c rx = true ↔ rx.capcnt.toNat = 25 ∧ c.trailMin ≤ (trailer rx.cap).active.toNat ∧
      (trailer rx.cap).active.toNat < c.trailMax ∧ (trailer rx.cap).idle.toNat = 0 := by
  simp only [frameOk, Bool.and_eq_true, decide_eq_true_eq, and_assoc, ← BitVec.toNat_inj]
  rfl

end Capture

/-! ### The pattern of 24 bits (42_waveform_decoder.md R134) -/

section Pattern
variable {bit : Fin 24 → Bool}

/-- The pattern whose bit i is the bit of pair i (42_waveform_decoder.md R134). -/
def patternOf (bit : Fin 24 → Bool) : Word := wordOfBits (List.ofFn bit)

theorem patternOf_getLsbD (i : Fin 24) : (patternOf bit).getLsbD i = bit i := by
  have hi : i.val < 32 := by omega
  rw [patternOf, wordOfBits_getLsbD, decide_eq_true hi, Bool.true_and, List.getD_eq_getElem _ _ (by simp),
    List.getElem_ofFn]

theorem patternOf_lt : (patternOf bit).toNat < 2 ^ 24 := by
  have h : natOfBits (List.ofFn bit) < 2 ^ (List.ofFn bit).length := natOfBits_lt _
  rw [List.length_ofFn] at h
  exact Nat.lt_of_le_of_lt (Nat.mod_le _ _) h

/-- The pattern of a word's low 24 bits is the word with the others cleared. -/
theorem patternOf_getLsbD_eq_and (b : Word) : patternOf (fun i => b.getLsbD i) = b &&& 0x00FFFFFF := by
  have hbit : ∀ i, i < 24 → (patternOf fun i => b.getLsbD i).getLsbD i = b.getLsbD i :=
    fun i hi => patternOf_getLsbD ⟨i, hi⟩
  have hmask : (b &&& 0x00FFFFFF).toNat ≤ 0x00FFFFFF := Nat.and_le_right
  refine eq_of_pairOf_eq patternOf_lt (by omega) fun j hj => ?_
  rw [pairOf_and_mask b hj, pairOf, hbit _ (by omega), hbit _ (by omega), pairOf]

end Pattern

/-! ### The three ways `wave.dec` ends (42_waveform_decoder.md R137) -/

section WaveDec
variable {c : Config} {s t : State}

theorem execWaveDecWith_of_bad_frame (hframe : frameOk c s.rx = false) :
    execWaveDecWith c s = .next { s with rx := { s.rx with status := ⟨6, 3⟩ } } := by
  simp only [execWaveDecWith, waveDecode, hframe]
  rfl

theorem execWaveDecWith_of_invalid_pair (hframe : frameOk c s.rx = true) {p : PulsePair}
    (hmem : p ∈ dataPairs s.rx.cap) (hp : classify c p = none) :
    execWaveDecWith c s = .next { s with rx := { s.rx with status := ⟨5, 3⟩ } } := by
  have hnone : allSome ((dataPairs s.rx.cap).map (classify c)) = none :=
    (allSome_eq_none_iff _).2 (List.mem_map.2 ⟨p, hmem, hp⟩)
  simp only [execWaveDecWith, waveDecode, hframe, hnone]
  rfl

theorem execWaveDecWith_of_classified (hframe : frameOk c s.rx = true) {bit : Fin 24 → Bool}
    (hbit : ∀ i : Fin 24, classify c (PulsePair.ofWord s.rx.cap[i.val]) = some (bit i)) :
    execWaveDecWith c s = .next { s with rx :=
      { s.rx with status := ⟨0, 3⟩, bits := patternOf bit, tpb := BitVec.ofNat 32 (ticksPerBit s.rx.cap) } } := by
  have hbits : (dataPairs s.rx.cap).map (classify c) = (List.ofFn bit).map some := by
    rw [dataPairs_eq_ofFn, List.map_ofFn, List.map_ofFn]
    exact congrArg List.ofFn (funext hbit)
  simp only [execWaveDecWith, waveDecode, hframe, hbits, allSome_map_some]
  rfl

/-- When every data pair is 1 exactly when it has the HIGH shape, so is every bit of the pattern. -/
theorem execWaveDecWith_of_high_shapes (hframe : frameOk c s.rx = true)
    (hpairs : ∀ p ∈ dataPairs s.rx.cap, classify c p = some (highShape c p)) :
    ∃ b : Word,
      execWaveDecWith c s = .next { s with rx :=
        { s.rx with status := ⟨0, 3⟩, bits := b, tpb := BitVec.ofNat 32 (ticksPerBit s.rx.cap) } } ∧
      (∀ i : Fin 24, b.getLsbD i = highShape c (PulsePair.ofWord s.rx.cap[i.val])) ∧ b.toNat < 2 ^ 24 :=
  ⟨_, execWaveDecWith_of_classified hframe (forall_mem_dataPairs_iff.1 hpairs), patternOf_getLsbD, patternOf_lt⟩

/-- A word with OP 3 written to RX_CMD runs `wave.dec` (30_encoding.md R77). -/
theorem busWrite_rxCmd_of_op_eq_three {w : Word} (hop : w.toNat % 16 = 3) :
    busWrite 0x0040 4 w s = execWaveDecWith Config.built s := by
  rw [busWrite_rxCmd, decode_rx_of_op_eq_three hop]
  rfl

/-- A second `wave.dec` finds the same capture and writes the same results (42_waveform_decoder.md R139). -/
theorem execWaveDecWith_idem (h : execWaveDecWith c s = .next t) : execWaveDecWith c t = .next t := by
  have hsame : waveDecode c t.rx = waveDecode c s.rx := by
    rw [(execWaveDecWith_frame h).1]
    exact waveDecode_congr rfl rfl
  cases hdec : waveDecode c s.rx <;> simp only [execWaveDecWith, hsame, hdec] at h ⊢ <;> cases h <;> rfl

end WaveDec

/-! ### The calibration (42_waveform_decoder.md R135, R136) -/

section Calibration
variable {cap : Vector Word 25} {m : Nat}

theorem calibrationSum_eq_sum (cap : Vector Word 25) :
    calibrationSum cap =
      ∑ i : Fin 24, ((PulsePair.ofWord cap[i.val]).active.toNat + (PulsePair.ofWord cap[i.val]).idle.toNat) := by
  rw [calibrationSum, dataPairs_eq_ofFn, List.map_ofFn, List.sum_ofFn]
  rfl

theorem ticksPerBit_eq_div (cap : Vector Word 25) : ticksPerBit cap = calibrationSum cap / 96 := rfl

theorem calibrationSum_le (h : ∀ p ∈ dataPairs cap, p.active.toNat + p.idle.toNat ≤ m) :
    calibrationSum cap ≤ 24 * m := by
  simpa [calibrationSum] using
    List.sum_le_card_nsmul ((dataPairs cap).map fun p => p.active.toNat + p.idle.toNat) m (by simpa using h)

theorem le_calibrationSum (h : ∀ p ∈ dataPairs cap, m ≤ p.active.toNat + p.idle.toNat) :
    24 * m ≤ calibrationSum cap := by
  simpa [calibrationSum] using
    List.card_nsmul_le_sum ((dataPairs cap).map fun p => p.active.toNat + p.idle.toNat) m (by simpa using h)

/-- A pair that classifies under the default windows has one short and one long duration (42_waveform_decoder.md
R136). -/
theorem duration_of_classify_built {p : PulsePair} (h : classify Config.built p ≠ none) :
    560 ≤ p.active.toNat + p.idle.toNat ∧ p.active.toNat + p.idle.toNat ≤ 1858 := by
  rcases shape_of_classify_ne_none h with hshape | hshape
  · rw [highShape_iff, inWin_built_winShort, inWin_built_winLong] at hshape
    omega
  · rw [lowShape_iff, inWin_built_winShort, inWin_built_winLong] at hshape
    omega

end Calibration

/-- Settles O38: each bound on a pair's duration gives one on the sum of the 24 pairs. -/
theorem ticksPerBitBounds : Obligations.TicksPerBitBounds := by
  refine fun cap => ⟨calibrationSum_eq_sum cap, ?_, ticksPerBit_eq_div cap, ticksPerBit_lt cap,
    fun _ => duration_of_classify_built, fun hclassify => ?_⟩
  · have hsum : calibrationSum cap ≤ 24 * (2 * 65535) := calibrationSum_le fun p _ => by
      have ha : p.active.toNat < 2 ^ 16 := p.active.isLt
      have hi : p.idle.toNat < 2 ^ 16 := p.idle.isLt
      omega
    omega
  · have hlo : 24 * 560 ≤ calibrationSum cap :=
      le_calibrationSum fun p hp => (duration_of_classify_built (hclassify p hp)).1
    have hhi : calibrationSum cap ≤ 24 * 1858 :=
      calibrationSum_le fun p hp => (duration_of_classify_built (hclassify p hp)).2
    rw [ticksPerBit_eq_div]
    omega

/-! ### The statements on `wave.dec` -/

/-- Settles O36: by the three ways `wave.dec` ends. -/
theorem waveDecDecodesCapture : Obligations.WaveDecDecodesCapture := by
  intro c s pairAt frame
  have hframe : frameOk c s.rx = true ↔ frame := frameOk_iff
  refine ⟨fun bit hf hbit => ?_, fun hf => ?_, fun hf => ?_, fun _ => busWrite_rxCmd_of_op_eq_three⟩
  · refine ⟨patternOf bit, ?_, patternOf_getLsbD, patternOf_lt⟩
    rw [execWaveDecWith_of_classified (hframe.2 hf) hbit, ticksPerBit_eq_div, calibrationSum_eq_sum]
    rfl
  · exact execWaveDecWith_of_bad_frame (Bool.eq_false_of_not_eq_true fun h => hf (hframe.1 h))
  · rintro ⟨i, hi⟩
    exact execWaveDecWith_of_invalid_pair (hframe.2 hf) (ofWord_mem_dataPairs i) hi

/-- Settles O37: a pair of exactly one shape is 1 exactly when that is the HIGH shape. -/
theorem waveDecCompletesOnTheMachine : Obligations.WaveDecCompletesOnTheMachine := by
  intro s hcnt hmin hmax hidle hshapes
  have hframe : frameOk Config.built s.rx = true :=
    frameOk_iff.2 ⟨congrArg BitVec.toNat hcnt, hmin, hmax, congrArg BitVec.toNat hidle⟩
  exact execWaveDecWith_of_high_shapes hframe fun p hp => classify_of_one_shape (hshapes p hp)

/-- Settles O39: `wave.dec` writes none of its operands, so a second one computes the same results. -/
theorem waveDecKeepsCapture : Obligations.WaveDecKeepsCapture := by
  intro s t h
  obtain ⟨-, hcap, hcnt⟩ := execWith_keeps_operands ((execWith_built .waveDec s).trans h)
  exact ⟨hcap, hcnt, execWaveDecWith_idem h⟩

/-- Settles O52: a pair of both shapes classifies by the policy. -/
theorem ambiguousPairsGoByPolicy : Obligations.AmbiguousPairsGoByPolicy := by
  refine fun c s hframe => ⟨?_, fun hpolicy hshapes => ?_⟩
  · rintro hpolicy ⟨p, hp, hh, hl⟩
    exact execWaveDecWith_of_invalid_pair hframe hp (classify_of_both_reject hh hl hpolicy)
  · exact execWaveDecWith_of_high_shapes hframe fun p hp => classify_of_shape_highFirst (hshapes p hp) hpolicy

/-! ### The ideal channel (42_waveform_decoder.md R141) -/

section Channel
variable {b : Word} {n k : Nat} {p : Profile} {t : List PulsePair}

/-- Pair i of capture k is the element of the train after the SYNC of frame k. -/
theorem idealCapture_getElem?_data (h : 25 * k + 25 ≤ t.length) {i : Nat} (hi : i < 24) :
    (idealCapture t k)[i]? = t[25 * k + 1 + i]? := by
  have hlen : i < ((t.drop (25 * k + 1)).take 24).length := by simp; omega
  rw [idealCapture, List.getElem?_append_left hlen, List.getElem?_take_of_lt hi, List.getElem?_drop]

/-- The trailer of capture k is the active part of the element where frame k + 1 begins. -/
theorem idealCapture_getElem?_trailer (h : 25 * k + 25 ≤ t.length) :
    (idealCapture t k)[24]? = some ⟨(t.getD (25 * (k + 1)) ⟨0, 0⟩).active, 0⟩ := by
  have hlen : ((t.drop (25 * k + 1)).take 24).length = 24 := by simp; omega
  rw [idealCapture, List.getElem?_append_right hlen.le, hlen]
  rfl

theorem train_getElem?_sync (hk : k < n) : (train b n p)[25 * k]? = some p.sync :=
  train_getElem? b n p k 0 hk (by decide)

theorem train_getElem?_bit (hk : k < n) {i : Nat} (hi : i < 24) :
    (train b n p)[25 * k + 1 + i]? = some (if b.getLsbD i then p.high else p.low) := by
  rw [Nat.add_assoc, train_getElem? b n p k (1 + i) hk (by omega), frame_getElem?_bit b p i hi]

theorem train_fits (hk : k < n - 1) : 25 * k + 25 ≤ (train b n p).length := by
  rw [train_length]
  omega

theorem idealCapture_train_bit (hk : k < n - 1) {i : Nat} (hi : i < 24) :
    (idealCapture (train b n p) k)[i]? = some (if b.getLsbD i then p.high else p.low) :=
  (idealCapture_getElem?_data (train_fits hk) hi).trans (train_getElem?_bit (by omega) hi)

theorem idealCapture_train_trailer (hk : k < n - 1) :
    (idealCapture (train b n p) k)[24]? = some ⟨p.sync.active, 0⟩ := by
  rw [idealCapture_getElem?_trailer (train_fits hk), List.getD_eq_getElem?_getD, train_getElem?_sync (by omega)]
  rfl

theorem idealChannel_getElem? (t : List PulsePair) (hk : k < n - 1) :
    (idealChannel t n)[k]? = some (idealCapture t k) := by
  simp [idealChannel, hk]

end Channel

/-- Settles O40: pair by pair, through the elements of the train. -/
theorem idealChannelCutsAtSync : Obligations.IdealChannelCutsAtSync := by
  refine fun b n p _ => ⟨by simp [idealChannel], fun k hk => ⟨_, idealChannel_getElem? _ hk,
    idealCapture_length _ _ (train_fits hk), fun i hi => ⟨idealCapture_train_bit hk hi, ?_⟩,
    idealCapture_train_trailer hk⟩⟩
  exact idealCapture_getElem?_data (train_fits hk) hi

/-! ### Receiving the pulses of a pattern (42_waveform_decoder.md R142) -/

section Reception
variable {c : Config} {p : Profile} {b : Word} {s : State}

/-- The capture holds the pulses of a pattern's 24 bits and the active part of a SYNC (42_waveform_decoder.md R141). -/
structure HoldsPulses (b : Word) (p : Profile) (rx : RxChannel) : Prop where
  count   : rx.capcnt = 25
  data    : ∀ i : Fin 24, PulsePair.ofWord rx.cap[i.val] = if b.getLsbD i then p.high else p.low
  trailer : trailer rx.cap = ⟨p.sync.active, 0⟩

theorem frameOk_of_holdsPulses (hp : RoundTripProfile c p) (h : HoldsPulses b p s.rx) : frameOk c s.rx = true := by
  obtain ⟨-, -, -, -, hmin, hmax⟩ := hp
  rw [frameOk_iff, h.count, h.trailer]
  exact ⟨rfl, hmin, hmax, rfl⟩

/-- Under a profile the round trip allows, `wave.dec` reads the pattern back (42_waveform_decoder.md R142). -/
theorem execWaveDecWith_of_holdsPulses (hp : RoundTripProfile c p) (h : HoldsPulses b p s.rx) :
    execWaveDecWith c s = .next { s with rx :=
      { s.rx with
        status := ⟨0, 3⟩
        bits := b &&& 0x00FFFFFF
        tpb := BitVec.ofNat 32 (ticksPerBit s.rx.cap) } } := by
  have hbit (i : Fin 24) : classify c (PulsePair.ofWord s.rx.cap[i.val]) = some (b.getLsbD i) := by
    rw [h.data i, classify_of_roundTripProfile hp]
  rw [execWaveDecWith_of_classified (frameOk_of_holdsPulses hp h) hbit, patternOf_getLsbD_eq_and]

/-- A sum of two values over a list, by how many elements take the first. -/
theorem sum_map_ite_const {α : Type} (l : List α) (q : α → Bool) (x y : Nat) :
    (l.map fun a => if q a then x else y).sum =
      (l.filter q).length * x + (l.length - (l.filter q).length) * y := by
  have hlen := l.length_eq_length_filter_add q
  have hrest : l.length - (l.filter q).length = (l.filter (!q ·)).length := by omega
  rw [hrest, List.sum_map_ite]
  simp

/-- The data pairs are the pulses of bits 0 to 23 (41_waveform_encoder.md R111). -/
theorem dataPairs_of_holdsPulses {rx : RxChannel} (h : HoldsPulses b p rx) :
    dataPairs rx.cap = (List.range 24).map fun i => if b.getLsbD i then p.high else p.low := by
  apply List.ext_getElem
  · simp
  · intro i hi _
    have hi : i < 24 := by simpa using hi
    rw [dataPairs_getElem _ i hi, h.data ⟨i, hi⟩]
    simp

/-- The sum of a pattern's pulses is by its number of 1 bits (42_waveform_decoder.md R142). -/
theorem calibrationSum_of_holdsPulses {rx : RxChannel} (h : HoldsPulses b p rx) :
    calibrationSum rx.cap =
      ((List.range 24).filter b.getLsbD).length * (p.high.active.toNat + p.high.idle.toNat) +
        (24 - ((List.range 24).filter b.getLsbD).length) * (p.low.active.toNat + p.low.idle.toNat) := by
  have hsum := sum_map_ite_const (List.range 24) b.getLsbD (p.high.active.toNat + p.high.idle.toNat)
    (p.low.active.toNat + p.low.idle.toNat)
  rw [List.length_range] at hsum
  rw [calibrationSum, dataPairs_of_holdsPulses h, List.map_map, ← hsum]
  exact congrArg List.sum (List.map_congr_left fun i _ =>
    apply_ite (fun q : PulsePair => q.active.toNat + q.idle.toNat) _ _ _)

/-- A captured frame of a train holds the pulses of its pattern. -/
theorem holdsPulses_withCapture {n k : Nat} (hk : k < n - 1) (rx : RxChannel) :
    HoldsPulses b p (rx.withCapture (idealCapture (train b n p) k)) := by
  have hlen : (idealCapture (train b n p) k).length = 25 := idealCapture_length _ _ (train_fits hk)
  have hcap {i : Nat} (hi : i < 25) {q : PulsePair} (hq : (idealCapture (train b n p) k)[i]? = some q) :
      PulsePair.ofWord (rx.withCapture (idealCapture (train b n p) k)).cap[i] = q := by
    rw [withCapture_cap rx _ i hi (hlen ▸ hi)]
    exact (List.getElem?_eq_some_iff.1 hq).2
  exact ⟨congrArg (BitVec.ofNat 16) hlen, fun i => hcap (by omega) (idealCapture_train_bit hk i.isLt),
    hcap (by omega) (idealCapture_train_trailer hk)⟩

/-- The word of a pair with its idle half cleared (30_encoding.md R74). -/
theorem ofWord_toWord_and (q : PulsePair) : PulsePair.ofWord (q.toWord &&& 0x0000FFFF) = ⟨q.active, 0⟩ := by
  have hactive : q.toWord.extractLsb' 0 16 = q.active := congrArg PulsePair.active (ofWord_toWord q)
  have hlow : (0x0000FFFF : Word).extractLsb' 0 16 = BitVec.allOnes 16 := by decide
  have hhigh : (0x0000FFFF : Word).extractLsb' 16 16 = 0#16 := by decide
  rw [PulsePair.ofWord, BitVec.extractLsb'_and, BitVec.extractLsb'_and, hactive, hlow, hhigh, BitVec.and_allOnes,
    BitVec.and_zero]
  rfl

/-- A frame of TXBUF copied into CAP, with the active half of the next SYNC word, holds the pulses of its pattern. -/
theorem holdsPulses_of_copied {n k : Nat} {buf : List Word} {rx : RxChannel} (hfit : 25 * n ≤ buf.length)
    (hk : k + 1 < n) (hcnt : rx.capcnt = 25)
    (hdata : ∀ i : Fin 24, rx.cap[i.val] = (withTrain b n p buf).getD (25 * k + 1 + i.val) 0)
    (htrailer : rx.cap[24] = (withTrain b n p buf).getD (25 * (k + 1)) 0 &&& 0x0000FFFF) : HoldsPulses b p rx where
  count := hcnt
  data i := by
    rw [hdata i, withTrain_getD_bit hfit (by omega) i.isLt, apply_ite PulsePair.ofWord, ofWord_toWord, ofWord_toWord]
  trailer := by rw [trailer, htrailer, withTrain_getD_sync hfit hk, ofWord_toWord_and]

end Reception

/-- Settles O41: the capture of the ideal channel holds the pattern's pulses, and pairs that all sum to 1208 give
302 ticks per bit. -/
theorem idealChannelRoundTrip : Obligations.IdealChannelRoundTrip := by
  intro c p b n k s _ hp _ hk loaded m
  have hpulses : HoldsPulses b p loaded.rx := holdsPulses_withCapture hk s.rx
  have htpb : (BitVec.ofNat 32 (ticksPerBit loaded.rx.cap)).toNat = ticksPerBit loaded.rx.cap :=
    Nat.mod_eq_of_lt ((ticksPerBit_lt _).trans (by decide))
  have hsum : ticksPerBit loaded.rx.cap = _ / 96 := congrArg (· / 96) (calibrationSum_of_holdsPulses hpulses)
  refine ⟨_, execWaveDecWith_of_holdsPulses hp hpulses, htpb.trans hsum, fun hhigh hlow => ?_⟩
  have hm : m ≤ 24 := (List.length_filter_le _ _).trans_eq List.length_range
  have h1208 : (m * 1208 + (24 - m) * 1208) / 96 = 302 := by omega
  rw [hhigh, hlow] at hsum
  exact congrArg (BitVec.ofNat 32) (hsum.trans h1208)

/-- Settles O42: the copied words of TXBUF are the pattern's pulses. -/
theorem transmittedPatternIsReceived : Obligations.TransmittedPatternIsReceived := by
  intro c psel rep p k s t hprofile hp hwhole hfit hk h
  cases (execWaveEncWith_of_fits hprofile hfit).symm.trans h
  refine ⟨rfl, fun u hcnt hdata htrailer => ⟨_, execWaveDecWith_of_holdsPulses hp ?_, rfl, rfl⟩⟩
  exact holdsPulses_of_copied (hfit.trans_eq hwhole.symm) hk hcnt hdata htrailer

end Sys2Proof.Machine

/-! SUPPORT. Proofs of the statements on exceptions (60_exceptions.md): every access completes, the code each command
ends with and the STATUS it writes, who changes a STATUS, the first failing check, and the access of the agents. -/

namespace Sys2Proof.Machine

/-! ### Every access completes (60_exceptions.md R160, R170) -/

section Completion
variable {a : Addr} {s t : State}

/-- A bus write of an aligned word answers a next state, whether its command succeeds, fails or is none. -/
theorem busWrite_aligned_next (ha : a.toNat % 4 = 0) (v : Word) (s : State) :
    ∃ t, busWrite a 4 v s = .next t ∧ t.agents = s.agents ∧ t.schedule = s.schedule := by
  have hserved : accessRefusal a 4 = none := (accessRefusal_eq_none_iff a 4).2 ⟨rfl, ha⟩
  rcases busWrite_cases a 4 v s with ⟨r, hr, -⟩ | ⟨-, -, e⟩ | ⟨-, -, e⟩ | ⟨-, -, -, e⟩
  · exact nomatch hr.symm.trans hserved
  · obtain ⟨t, hx, hagents, hsched, -⟩ := exec_next (decode .tx v) s
    exact ⟨t, e.trans hx, hagents, hsched⟩
  · obtain ⟨t, hx, hagents, hsched, -⟩ := exec_next (decode .rx v) s
    exact ⟨t, e.trans hx, hagents, hsched⟩
  · exact ⟨_, e, storeRegion_agents _ _ _, storeRegion_schedule _ _ _⟩

/-- Settles O13: the bus refuses no aligned word, every command answers a next state, and a store is one. -/
theorem alignedAccessCompletes : Obligations.AlignedAccessCompletes :=
  fun s a v ha => ⟨⟨_, busReadWith_aligned Config.built a s ha⟩, busWrite_aligned_next ha v s⟩

/-- An agent's read of a word the bus answers assigns that word to the agent's variable (30_encoding.md R82). -/
theorem agentReadWith_of_read {c : Config} (who : AgentId) {addr size : Nat} (x : Nat) {w : Word}
    (hlt : addr < 2 ^ 16) (hread : busReadWith c (BitVec.ofNat 16 addr) size s = .ok w) :
    agentReadWith c who addr size x s = .next (s.withVar who x w) := by
  rw [agentReadWith, if_pos hlt, hread]

/-- Settles O15: an agent's write is the bus write at its address, which names no agent, and its read assigns what the
bus read returns, which depends on none. -/
theorem everyAgentHasTheSameAccess : Obligations.EveryAgentHasTheSameAccess := by
  refine fun s who other a v size => ⟨rfl, fun t x h => ?_, fun hlt hal => ⟨?_, fun x => ?_⟩⟩
  · obtain ⟨hlt, w, hread, rfl⟩ := agentReadWith_next _ _ _ _ _ _ _ h
    exact ⟨w, rfl, agentReadWith_of_read other x hlt hread⟩
  all_goals have hal : (BitVec.ofNat 16 a.toNat).toNat % 4 = 0 := by rwa [BitVec.toNat_ofNat, Nat.mod_eq_of_lt hlt]
  · obtain ⟨t, hwrite, -⟩ := busWrite_aligned_next hal v s
    exact ⟨t, (if_pos hlt).trans hwrite⟩
  · exact ⟨_, agentReadWith_aligned Config.built who x s hlt hal⟩

end Completion

/-! ### The STATUS of a channel by its command register -/

/-- The STATUS register of the channel a command register belongs to (10_state.md R22, R29). -/
def statusOf (s : State) : CmdReg → Status
  | .tx => s.tx.status
  | .rx => s.rx.status

/-- The state with another content of that STATUS register. -/
def withStatus (s : State) (st : Status) : CmdReg → State
  | .tx => { s with tx := { s.tx with status := st } }
  | .rx => { s with rx := { s.rx with status := st } }

/-- The address of a command register (20_memory.md R51). -/
def cmdAddr : CmdReg → Addr
  | .tx => 0x0000
  | .rx => 0x0040

theorem busWrite_cmdAddr (r : CmdReg) (w : Word) (s : State) : busWrite (cmdAddr r) 4 w s = exec (decode r w) s := by
  cases r with
  | tx => exact busWrite_txCmd w s
  | rx => exact busWrite_rxCmd w s

theorem statusOf_storeRegion (s : State) (v : Word) (region : Region) (r : CmdReg) :
    statusOf (storeRegion s v region) r = statusOf s r := by
  cases r with
  | tx => exact storeRegion_txStatus s v region
  | rx => exact storeRegion_rxStatus s v region

/-- A STATUS read over the bus has bits 31:8 clear (10_state.md R22, R29). -/
theorem Status.word_div_256 (st : Status) : st.word.toNat / 256 = 0 := by
  have hlast : st.lastOp.toNat < 16 := st.lastOp.isLt
  have herr : st.err.toNat < 16 := st.err.isLt
  rw [Status.word_eq_ofNat, BitVec.toNat_ofNat]
  omega

/-! ### The code a command ends with (60_exceptions.md R162, R164) -/

/-- The codes a command can report (60_exceptions.md R162). -/
def reportedCodes : Instr → List ErrCode
  | .triEnc => [.ok, .invCodeSym]
  | .waveEnc _ _ => [.ok, .invProtocol, .noMem]
  | .waveDec => [.ok, .invFrame, .invCodeSym]
  | .triDec => [.ok, .invCodeSym]
  | .reservedTx _ => [.invArgument]
  | .reservedRx _ => [.invArgument]

theorem commandCode_mem_reportedCodes (i : Instr) (s : State) : commandCode i s ∈ reportedCodes i := by
  cases i with
  | triEnc => rcases execTriEnc_cases s with ⟨h, -⟩ | ⟨b, h, -⟩ <;> simp [commandCode, h, codeOf, reportedCodes]
  | waveEnc psel rep =>
    rcases waveEncode_cases Config.built psel rep s.tx.bits with ⟨-, h⟩ | ⟨p, -, ⟨-, h⟩ | ⟨-, h⟩⟩ <;>
      simp [commandCode, h, codeOf, reportedCodes]
  | waveDec =>
    rcases waveDecode_cases Config.built s.rx with ⟨-, h⟩ | ⟨-, ⟨-, h⟩ | ⟨bits, -, h⟩⟩ <;>
      simp [commandCode, h, codeOf, reportedCodes]
  | triDec => rcases execTriDec_cases s with ⟨h, -⟩ | ⟨r, h, -⟩ <;> simp [commandCode, h, codeOf, reportedCodes]
  | reservedTx op => exact List.mem_singleton_self _
  | reservedRx op => exact List.mem_singleton_self _

/-- No command reports code 4, 7 or a reserved code (60_exceptions.md R163). -/
theorem code_of_mem_reportedCodes {i : Instr} {e : ErrCode} (h : e ∈ reportedCodes i) :
    e.code ≠ 4 ∧ e.code.toNat < 7 := by
  cases i <;> revert e <;> simp only [reportedCodes] <;> decide

/-- Only ERR_INV_ARGUMENT is code 1 (60_exceptions.md R161). -/
theorem ErrCode.code_eq_one_iff (e : ErrCode) : e.code = 1 ↔ e = .invArgument := by
  cases e <;> decide

/-- Only a reserved opcode reports ERR_INV_ARGUMENT (60_exceptions.md R163). -/
theorem reserved_of_invArgument_mem {i : Instr} (h : .invArgument ∈ reportedCodes i) :
    ∃ op, i = .reservedTx op ∨ i = .reservedRx op := by
  cases i with
  | reservedTx op => exact ⟨op, .inl rfl⟩
  | reservedRx op => exact ⟨op, .inr rfl⟩
  | triEnc | waveEnc | waveDec | triDec => simp [reportedCodes] at h

/-! ### The STATUS a command writes (60_exceptions.md R164) -/

section Ending
variable {i : Instr} {s t : State}

/-- Every command ends by writing its channel's STATUS: its OP and the code it ends with. -/
theorem statusOf_exec (h : exec i s = .next t) :
    statusOf t i.cmdReg = Status.ofCommand (opField (encode i)) (commandCode i s) := by
  cases i with
  | triEnc =>
    cases hcode : triEncode s.tx.sym <;> simp only [exec, execTriEnc, hcode] at h <;> cases h <;>
      simp only [commandCode, hcode, encode, opField_commandWord] <;> rfl
  | waveEnc psel rep =>
    cases hcode : waveEncode Config.built psel rep s.tx.bits <;>
      simp only [exec, execWaveEnc, execWaveEncWith, hcode] at h <;> cases h <;>
      simp only [commandCode, hcode, encode, opField_commandWord] <;> rfl
  | waveDec =>
    cases hcode : waveDecode Config.built s.rx <;>
      simp only [exec, execWaveDec, execWaveDecWith, hcode] at h <;> cases h <;>
      simp only [commandCode, hcode, encode, opField_commandWord] <;> rfl
  | triDec =>
    cases hcode : triDecode s.rx.bits <;> simp only [exec, execTriDec, hcode] at h <;> cases h <;>
      simp only [commandCode, hcode, encode, opField_commandWord] <;> rfl
  | reservedTx op => cases h; simp only [encode, opField_commandWord]; rfl
  | reservedRx op => cases h; simp only [encode, opField_commandWord]; rfl

/-- A command leaves the STATUS of the other channel (60_exceptions.md R164). -/
theorem statusOf_exec_other {r : CmdReg} (h : exec i s = .next t) (hr : r ≠ i.cmdReg) :
    statusOf t r = statusOf s r := by
  rw [← execWith_built] at h
  cases r with
  | tx =>
    have hrx : i.cmdReg = .rx := by cases hi : i.cmdReg; exacts [absurd hi.symm hr, rfl]
    exact congrArg TxChannel.status (execWith_keeps_tx h hrx)
  | rx =>
    have htx : i.cmdReg = .tx := by cases hi : i.cmdReg; exacts [rfl, absurd hi.symm hr]
    exact congrArg RxChannel.status (execWith_keeps_rx h htx)

/-- The code in a command's STATUS is one the command can report (60_exceptions.md R162). -/
theorem err_of_exec (h : exec i s = .next t) : ∃ e ∈ reportedCodes i, (statusOf t i.cmdReg).err = e.code :=
  ⟨_, commandCode_mem_reportedCodes i s, by rw [statusOf_exec h, Status.ofCommand_err]⟩

end Ending

/-- Settles O20: the code is one of the command's reportable codes. -/
theorem commandsReportOnlyTheirCodes : Obligations.CommandsReportOnlyTheirCodes := by
  refine fun s t => ⟨fun h => ?_, fun p n h => ?_, fun h => ?_, fun h => ?_, fun op h => ?_, fun op h => ?_⟩ <;>
    simpa [reportedCodes, ErrCode.code, Instr.cmdReg, statusOf] using err_of_exec h

/-- Decoding any instruction reads all of OP (30_encoding.md R78). -/
theorem opField_readBits (i : Instr) : opField i.readBits = BitVec.allOnes 4 := by
  cases i <;> simp only [Instr.readBits] <;> decide

/-- Decoding keeps the OP of a word. -/
theorem opField_encode_decode (r : CmdReg) (w : Word) : opField (encode (decode r w)) = opField w := by
  rw [encode_decode, opField_and, opField_readBits, BitVec.and_allOnes]

/-- A write that is not to a channel's command register leaves that channel's STATUS (60_exceptions.md R164). -/
theorem busWrite_keeps_status {a : Addr} {v : Word} {s t : State} {r : CmdReg} (h : busWrite a 4 v s = .next t)
    (ha : a ≠ cmdAddr r) : statusOf t r = statusOf s r := by
  have hcommand {r' : CmdReg} (haddr : a = cmdAddr r') : statusOf t r = statusOf s r := by
    subst haddr
    rw [busWrite_cmdAddr] at h
    exact statusOf_exec_other h fun hr => ha (by rw [hr, decode_cmdReg])
  rcases busWrite_cases a 4 v s with ⟨e, -, he⟩ | ⟨hal, hr, -⟩ | ⟨hal, hr, -⟩ | ⟨-, -, -, e⟩
  · exact nomatch he.symm.trans h
  · exact hcommand (r' := .tx) (BitVec.eq_of_toNat_eq (toNat_eq_region_address hal hr nofun))
  · exact hcommand (r' := .rx) (BitVec.eq_of_toNat_eq (toNat_eq_region_address hal hr nofun))
  · cases e.symm.trans h
    exact statusOf_storeRegion s v _ r

/-- A write to a command register completes and leaves its STATUS with the code and cmd[3:0], and the other STATUS as it
was (60_exceptions.md R164). -/
theorem busWrite_cmdAddr_status (r : CmdReg) (w : Word) (s : State) :
    ∃ t, busWrite (cmdAddr r) 4 w s = .next t ∧
      statusOf t r = ⟨(commandCode (decode r w) s).code, BitVec.ofNat 4 (w.toNat % 16)⟩ ∧
      ∀ r', r' ≠ r → statusOf t r' = statusOf s r' := by
  obtain ⟨t, h, -⟩ := exec_next (decode r w) s
  refine ⟨t, (busWrite_cmdAddr r w s).trans h, ?_, fun r' hr => ?_⟩
  · have hstatus := statusOf_exec h
    rwa [decode_cmdReg, opField_encode_decode, opField_eq_ofNat] at hstatus
  · exact statusOf_exec_other h (by rwa [decode_cmdReg])

/-- Settles O19: the STATUS a write to each command register leaves, and the writes that leave both as they were. -/
theorem commandWritesItsStatus : Obligations.CommandWritesItsStatus := by
  refine fun s w => ⟨?_, ?_, fun a t htx hrx h => ⟨?_, ?_⟩⟩
  · obtain ⟨t, h, hstatus, hother⟩ := busWrite_cmdAddr_status .tx w s
    exact ⟨t, h, hstatus, hother .rx nofun, _, busReadWith_of_mapped .txStatus trivial rfl, Status.word_div_256 _⟩
  · obtain ⟨t, h, hstatus, hother⟩ := busWrite_cmdAddr_status .rx w s
    exact ⟨t, h, hstatus, hother .tx nofun, _, busReadWith_of_mapped .rxStatus trivial rfl, Status.word_div_256 _⟩
  · exact busWrite_keeps_status (r := .tx) h fun ha => htx (congrArg BitVec.toNat ha)
  · exact busWrite_keeps_status (r := .rx) h fun ha => hrx (congrArg BitVec.toNat ha)

/-! ### What a command does never depends on its STATUS (60_exceptions.md R165) -/

theorem exec_withStatus {i : Instr} {r : CmdReg} (s : State) (st : Status) (hr : i.cmdReg = r) :
    exec i (withStatus s st r) = exec i s := by
  subst hr
  cases i with
  | triEnc => cases h : triEncode s.tx.sym <;> simp only [exec, execTriEnc, Instr.cmdReg, withStatus, h] <;> rfl
  | waveEnc psel rep =>
    cases h : waveEncode Config.built psel rep s.tx.bits <;>
      simp only [exec, execWaveEnc, execWaveEncWith, Instr.cmdReg, withStatus, h] <;> rfl
  | waveDec =>
    have hrx : waveDecode Config.built { s.rx with status := st } = waveDecode Config.built s.rx :=
      waveDecode_congr rfl rfl
    cases h : waveDecode Config.built s.rx <;>
      simp only [exec, execWaveDec, execWaveDecWith, Instr.cmdReg, withStatus, hrx, h] <;> rfl
  | triDec => cases h : triDecode s.rx.bits <;> simp only [exec, execTriDec, Instr.cmdReg, withStatus, h] <;> rfl
  | reservedTx op => rfl
  | reservedRx op => rfl

/-- Settles O22: each command reads its operands only, and overwrites its STATUS whatever it held. -/
theorem errorsAreNotSticky : Obligations.ErrorsAreNotSticky :=
  fun _ s st => ⟨exec_withStatus s st, exec_withStatus s st⟩

/-! ### Who changes a STATUS in a step (60_exceptions.md R163, R182) -/

section Steps
variable {s t : State}

/-- A step that changes a STATUS resets it, or serves the write that runs a command on its register. -/
theorem statusOf_change_cases {r : CmdReg} (h : step s = .next t) (hne : statusOf t r ≠ statusOf s r) :
    statusOf t r = ⟨0, 0⟩ ∨
    ∃ who v s', nextAccess s = some (who, .write (cmdAddr r) v) ∧ exec (decode r v) s' = .next t := by
  rcases step_cases s t h with ⟨rest, -, rfl⟩ | ⟨who, addr, v, s', hacc, htx, hrx, -, hw⟩ | ⟨-, -, htx, hrx, -⟩
  · exact .inl (by cases r <;> rfl)
  · have hsame : statusOf s' r = statusOf s r := by cases r <;> simp only [statusOf, htx, hrx]
    obtain rfl : addr = cmdAddr r := by_contra fun ha => hne ((busWrite_keeps_status hw ha).trans hsame)
    exact .inr ⟨who, v, s', hacc, (busWrite_cmdAddr r v s').symm.trans hw⟩
  · exact absurd (by cases r <;> simp only [statusOf, htx, hrx]) hne

/-- A step that changes a STATUS writes OK at reset, or a code the command it runs can report. -/
theorem err_change_cases {r : CmdReg} (h : step s = .next t) (hne : statusOf t r ≠ statusOf s r) :
    (statusOf t r).err = 0 ∨
    ∃ who v, nextAccess s = some (who, .write (cmdAddr r) v) ∧
      ∃ e ∈ reportedCodes (decode r v), (statusOf t r).err = e.code := by
  rcases statusOf_change_cases h hne with hzero | ⟨who, v, s', hacc, hx⟩
  · exact .inl (by rw [hzero])
  · have herr := err_of_exec hx
    rw [decode_cmdReg] at herr
    exact .inr ⟨who, v, hacc, herr⟩

/-- A STATUS with an unused code after a step is as it was (60_exceptions.md R163). -/
theorem statusOf_of_unused_code (r : CmdReg) (h : step s = .next t)
    (hunused : (statusOf t r).err = 4 ∨ 7 ≤ (statusOf t r).err.toNat) : statusOf t r = statusOf s r := by
  by_contra hne
  have hused : (statusOf t r).err ≠ 4 ∧ (statusOf t r).err.toNat < 7 := by
    rcases err_change_cases h hne with hzero | ⟨_, _, _, e, he, hcode⟩
    · rw [hzero]; decide
    · rw [hcode]; exact code_of_mem_reportedCodes he
  exact hunused.elim hused.1 hused.2.not_ge

/-- A step that writes ERR_INV_ARGUMENT serves the write of a reserved opcode (60_exceptions.md R163). -/
theorem reserved_of_invArgument_written (r : CmdReg) (h : step s = .next t) (herr : (statusOf t r).err = 1)
    (hne : statusOf t r ≠ statusOf s r) :
    ∃ who v op, nextAccess s = some (who, .write (cmdAddr r) v) ∧
      (decode r v = .reservedTx op ∨ decode r v = .reservedRx op) := by
  rcases err_change_cases h hne with hzero | ⟨who, v, hacc, e, he, hcode⟩
  · exact absurd (hzero.symm.trans herr) (by decide)
  · obtain rfl := (ErrCode.code_eq_one_iff e).1 (hcode.symm.trans herr)
    obtain ⟨op, hop⟩ := reserved_of_invArgument_mem he
    exact ⟨who, v, op, hacc, hop⟩

end Steps

/-- Settles O21: a changed STATUS is reset or holds a code its command can report, and each register decodes to its own
reserved opcodes. -/
theorem unusedCodesNeverWritten : Obligations.UnusedCodesNeverWritten := by
  refine fun s t h => ⟨statusOf_of_unused_code .tx h, statusOf_of_unused_code .rx h, fun herr hne => ?_,
    fun herr hne => ?_⟩
  · obtain ⟨who, v, op, hacc, hop | hop⟩ := reserved_of_invArgument_written .tx h herr hne
    · exact ⟨who, v, op, hacc, hop⟩
    · exact nomatch (congrArg Instr.cmdReg hop).symm.trans (decode_cmdReg .tx v)
  · obtain ⟨who, v, op, hacc, hop | hop⟩ := reserved_of_invArgument_written .rx h herr hne
    · exact nomatch (congrArg Instr.cmdReg hop).symm.trans (decode_cmdReg .rx v)
    · exact ⟨who, v, op, hacc, hop⟩

theorem stepWith_of_no_turn (c : Config) {s : State} (h : s.schedule = []) : stepWith c s = .next s := by
  rw [stepWith, h]

/-- Settles O46: of the things a step can do, only a reset and a write touch the block. -/
theorem blockChangesOnlyInWrites : Obligations.BlockChangesOnlyInWrites := by
  refine ⟨fun s t h hreset hwrite => ?_, fun s => stepWith_of_no_turn Config.built⟩
  rcases step_cases s t h with ⟨rest, hs, -⟩ | ⟨who, addr, v, -, hacc, -⟩ | ⟨-, -, htx, hrx, -⟩
  · exact absurd (by rw [hs]; rfl) hreset
  · exact absurd hacc (hwrite who addr v)
  · exact ⟨htx, hrx⟩

/-! ### The first failing check (60_exceptions.md R166, R167) -/

/-- PSEL 2 and 3 select no profile (41_waveform_encoder.md R110). -/
theorem profileOf_eq_none_iff_two_le {c : Config} {psel : BitVec 2} : profileOf c psel = none ↔ 2 ≤ psel.toNat := by
  rcases psel_cases psel with rfl | rfl | rfl | rfl <;> simp [profileOf]

/-- Settles O25: each command's failing checks, in their order. -/
theorem firstFailingCheckDecides : Obligations.FirstFailingCheckDecides := by
  refine fun c s => ⟨fun _ _ => rfl, fun _ _ => rfl, fun p n hp => ?_, fun p n hp hbig => ?_,
    execWaveDecWith_of_bad_frame, fun hframe hpair => ?_, fun hsym => ?_, fun hpair => ?_⟩
  · exact execWaveEncWith_of_no_profile (profileOf_eq_none_iff_two_le.2 hp)
  · have hprofile : profileOf c p ≠ none := fun hnone => hp.not_ge (profileOf_eq_none_iff_two_le.1 hnone)
    obtain ⟨profile, hprofile⟩ := Option.ne_none_iff_exists'.1 hprofile
    exact execWaveEncWith_of_not_fits hprofile hbig
  · obtain ⟨i, hi⟩ := hpair
    exact execWaveDecWith_of_invalid_pair hframe (ofWord_mem_dataPairs i) hi
  · exact exec_triEnc_of_error ((triEncode_eq_ofTwelve _).trans (ofTwelve_eq_error hsym))
  · exact exec_triDec_of_error ((triDecode_eq_ofTwelve _).trans (ofTwelve_eq_error hpair))

end Sys2Proof.Machine

/-! SUPPORT. Proofs of the statements on reset and hazards (70_reset_and_hazards.md): a reset turn, the commands right
after reset, the train PulseGen reads, and the independence of the two channels. -/

namespace Sys2Proof.Machine

/-! ### Reset (70_reset_and_hazards.md R190, R192) -/

theorem stepWith_of_reset_turn (c : Config) {s : State} {rest : List Turn} (h : s.schedule = .reset :: rest) :
    stepWith c s = .next (resetBlock c { s with schedule := rest }) := by
  rw [stepWith, h]
  rfl

/-- Settles O17: a reset turn is `resetBlock`, which writes the two channels as `State.resetWith` has them. -/
theorem resetTurnRestoresBlock : Obligations.ResetTurnRestoresBlock :=
  fun c _ _ h => ⟨stepWith_of_reset_turn c h, stepWith_of_reset_turn Config.built h⟩

/-- A symbol register at its reset value holds no character (40_symbol_codec.md R92). -/
theorem triEncode_zero : triEncode ⟨0, 0, 0⟩ = .error .invCodeSym :=
  triEncode_eq_error (j := 0) (by decide) (by decide)

/-- RX_CAPCNT at its reset value counts no capture of 25 pairs (42_waveform_decoder.md R133). -/
theorem frameOk_reset (c : Config) : frameOk c (State.resetWith c).rx = false :=
  Bool.eq_false_iff.2 fun h => absurd (frameOk_iff.1 h).1 (show (0 : BitVec 16).toNat ≠ 25 by decide)

/-- The pattern 0 is twelve pairs 00, twelve symbols '0' (40_symbol_codec.md R91). -/
theorem triDecode_zero : triDecode 0 = .ok ⟨0x30303030, 0x30303030, 0x30303030⟩ := by decide

/-- Settles O18: the codec's three functions at the reset values, and the completing case of `wave.enc` (O34) with every
bit of TX_BITS clear. -/
theorem commandsRightAfterReset : Obligations.CommandsRightAfterReset := by
  refine ⟨exec_triEnc_of_error triEncode_zero, execWaveDecWith_of_bad_frame (frameOk_reset _),
    exec_triDec_of_ok triDecode_zero, fun n hn => ?_⟩
  obtain ⟨buf, hexec, -, -, hframes⟩ :=
    waveEncCompletesOnTheMachine 0 n Config.built.profile0 State.reset reset_memory_wf (.inl ⟨rfl, rfl⟩) hn
  refine ⟨_, hexec, rfl, ?_, rfl, fun r hr => ?_⟩
  · exact Nat.mod_eq_of_lt (by omega)
  · obtain ⟨hsync, -, hbits⟩ := hframes r hr
    exact ⟨hsync, fun i hi => (hbits rfl i hi).trans (by simp [State.reset, State.resetWith, TxChannel.resetWith])⟩

/-! ### A train in use (70_reset_and_hazards.md R196) -/

section TrainInUse
variable {c : Config} {m : Monitor} {s : State} {who : AgentId} {v : Word}

theorem observeWith_of_write {addr : Addr} (hacc : nextAccess s = some (who, .write addr v)) :
    m.observeWith c s = m.onWrite c who v s (region c addr) := by
  have hreset : ∀ rest, s.schedule ≠ .reset :: rest := fun rest hs => by simp [nextAccess, hs] at hacc
  unfold Monitor.observeWith
  split
  · exact absurd ‹_› (hreset _)
  · rw [hacc]

/-- Whoever writes it, a `wave.enc` breaks a duty while PulseGen reads a train: the channel's one user (R197) or the
train in use. -/
theorem onWrite_waveEnc_of_train_in_use (huse : m.trainUntil.isSome = true) (hop : v.toNat % 16 = 2) :
    ∃ duty, m.onWrite c who v s .txCmd = .error duty := by
  rw [Monitor.onWrite, decode_tx_of_op_eq_two hop]
  cases claimUser m.txUser who with
  | error duty => exact ⟨duty, rfl⟩
  | ok user => exact ⟨.trainNotInUse, if_pos huse⟩

end TrainInUse

/-- Settles O50: only `wave.enc` changes TX_LEN or TXBUF, and it breaks a duty while a train is in use. -/
theorem dutiesProtectTrainInUse : Obligations.DutiesProtectTrainInUse := by
  intro m m' s t huse hkept hstep hreset
  by_contra hchanged
  obtain ⟨who, v, hacc, hop⟩ := train_changed hstep hreset (not_and_or.1 fun h => hchanged h.symm)
  obtain ⟨duty, hbroken⟩ := onWrite_waveEnc_of_train_in_use (c := Config.built) (s := s) (who := who) huse hop
  have hobserved : m.observe s = .error duty := (observeWith_of_write hacc).trans hbroken
  exact nomatch hobserved.symm.trans hkept

/-! ### The channels do not interfere (70_reset_and_hazards.md R201)

An access on the side of one channel reads and writes that channel alone. -/

/-- The other channel's command register. -/
def otherReg : CmdReg → CmdReg
  | .tx => .rx
  | .rx => .tx

theorem eq_of_ne_otherReg {r r' : CmdReg} (h : r' ≠ otherReg r) : r' = r := by
  cases r <;> cases r' <;> simp [otherReg] at h ⊢

/-- The state with one channel as it is in another state. -/
def State.withChannel (s : State) (r : CmdReg) (u : State) : State :=
  match r with
  | .tx => { s with tx := u.tx }
  | .rx => { s with rx := u.rx }

/-- The channel a region belongs to (20_memory.md R51); reserved addresses belong to none. -/
def Region.channel : Region → Option CmdReg
  | .txCmd | .txStatus | .txBits | .txLen | .txSym0 | .txSym1 | .txSym2 | .txbuf _ => some .tx
  | .rxCmd | .rxStatus | .rxBits | .rxTpb | .rxSym0 | .rxSym1 | .rxSym2 | .rxCapcnt | .cap _ => some .rx
  | .reserved => none

/-- An operation acts on one channel: it leaves everything else, and does the same whatever the other channel holds. -/
def ActsOn (r : CmdReg) (f : State → Result) : Prop :=
  ∀ s t, f s = .next t →
    t = s.withChannel r t ∧ ∀ u, f (s.withChannel (otherReg r) u) = .next (t.withChannel (otherReg r) u)

/-- Operations that act on different channels commute. -/
theorem ActsOn.commute {f g : State → Result} (hf : ActsOn .tx f) (hg : ActsOn .rx g) {s t u : State}
    (ht : f s = .next t) (hu : g s = .next u) : ∃ z, g t = .next z ∧ f u = .next z := by
  obtain ⟨hframe_f, hindep_f⟩ := hf s t ht
  obtain ⟨hframe_g, hindep_g⟩ := hg s u hu
  have hgt : g t = .next (u.withChannel .tx t) := by rw [hframe_f]; exact hindep_g t
  have hfu : f u = .next (t.withChannel .rx u) := by rw [hframe_g]; exact hindep_f u
  have hsame : t.withChannel .rx u = u.withChannel .tx t := by rw [hframe_f, hframe_g]; rfl
  exact ⟨_, hgt, hsame ▸ hfu⟩

/-- A command acts on the channel of its register (10_state.md R39). -/
theorem exec_actsOn (i : Instr) : ActsOn i.cmdReg (exec i) := by
  intro s t h
  cases i with
  | triEnc =>
    cases hcode : triEncode s.tx.sym <;> simp only [exec, execTriEnc, hcode] at h <;> cases h <;>
      refine ⟨rfl, fun u => show execTriEnc { s with rx := u.rx } = _ from ?_⟩ <;>
      simp only [execTriEnc, hcode] <;> rfl
  | waveEnc psel rep =>
    cases hcode : waveEncode Config.built psel rep s.tx.bits <;>
      simp only [exec, execWaveEnc, execWaveEncWith, hcode] at h <;> cases h <;>
      refine ⟨rfl, fun u => show execWaveEncWith Config.built psel rep { s with rx := u.rx } = _ from ?_⟩ <;>
      simp only [execWaveEncWith, hcode] <;> rfl
  | waveDec =>
    cases hcode : waveDecode Config.built s.rx <;>
      simp only [exec, execWaveDec, execWaveDecWith, hcode] at h <;> cases h <;>
      refine ⟨rfl, fun u => show execWaveDecWith Config.built { s with tx := u.tx } = _ from ?_⟩ <;>
      simp only [execWaveDecWith, hcode] <;> rfl
  | triDec =>
    cases hcode : triDecode s.rx.bits <;> simp only [exec, execTriDec, hcode] at h <;> cases h <;>
      refine ⟨rfl, fun u => show execTriDec { s with tx := u.tx } = _ from ?_⟩ <;>
      simp only [execTriDec, hcode] <;> rfl
  | reservedTx op => cases h; exact ⟨rfl, fun _ => rfl⟩
  | reservedRx op => cases h; exact ⟨rfl, fun _ => rfl⟩

section Sides
variable {r : CmdReg} {region : Region}

/-- What a region reads does not depend on a channel it does not belong to. -/
theorem readRegion_withChannel (s u : State) (h : region.channel ≠ some r) :
    readRegion (s.withChannel r u) region = readRegion s region := by
  cases region with
  | reserved => rfl
  | txCmd | txStatus | txBits | txLen | txSym0 | txSym1 | txSym2 | txbuf =>
    cases r with
    | tx => exact absurd rfl h
    | rx => rfl
  | rxCmd | rxStatus | rxBits | rxTpb | rxSym0 | rxSym1 | rxSym2 | rxCapcnt | cap =>
    cases r with
    | tx => rfl
    | rx => exact absurd rfl h

/-- A store acts on the channel of its region, a reserved one on neither (20_memory.md R56, R57). -/
theorem storeRegion_actsOn (v : Word) (h : region.channel ≠ some (otherReg r)) :
    ActsOn r fun s => .next (storeRegion s v region) := by
  rintro s _ ⟨⟩
  cases region with
  | reserved => cases r <;> exact ⟨rfl, fun _ => rfl⟩
  | txCmd | txStatus | txBits | txLen | txSym0 | txSym1 | txSym2 | txbuf =>
    cases r with
    | tx => exact ⟨rfl, fun _ => rfl⟩
    | rx => exact absurd rfl h
  | rxCmd | rxStatus | rxBits | rxTpb | rxSym0 | rxSym1 | rxSym2 | rxCapcnt | cap =>
    cases r with
    | tx => exact absurd rfl h
    | rx => exact ⟨rfl, fun _ => rfl⟩

end Sides

/-- The RX registers and CAP stand from 0x0040 to below 0x1000 (20_memory.md R51). -/
theorem Region.address_of_channel_rx {region : Region} (h : region.channel = some .rx) :
    0x0040 ≤ region.address ∧ region.address < 0x1000 := by
  cases region with
  | cap k => simp only [address, capBase]; omega
  | rxCmd | rxStatus | rxBits | rxTpb | rxSym0 | rxSym1 | rxSym2 | rxCapcnt => decide
  | txCmd | txStatus | txBits | txLen | txSym0 | txSym1 | txSym2 | txbuf | reserved => exact nomatch h

/-- The TX registers stand below 0x0040 and TXBUF from 0x1000 on (20_memory.md R51). -/
theorem Region.address_of_channel_tx {region : Region} (h : region.channel = some .tx) :
    region.address < 0x0040 ∨ 0x1000 ≤ region.address := by
  cases region with
  | txbuf k => exact .inr (Nat.le_add_right _ _)
  | txCmd | txStatus | txBits | txLen | txSym0 | txSym1 | txSym2 => decide
  | rxCmd | rxStatus | rxBits | rxTpb | rxSym0 | rxSym1 | rxSym2 | rxCapcnt | cap | reserved => exact nomatch h

section Accesses
variable {c : Config} {a : Addr} {v : Word} {r : CmdReg}

/-- An aligned address that belongs to a channel is that of its region. -/
theorem toNat_of_region_channel (ha : a.toNat % 4 = 0) (h : (region c a).channel = some r) :
    a.toNat = (region c a).address :=
  regionOf_address c.txDepth a.toNat ha fun hreserved => nomatch (congrArg Region.channel hreserved).symm.trans h

theorem busReadWith_withChannel (s u : State) (ha : a.toNat % 4 = 0) (h : (region c a).channel ≠ some r) :
    busReadWith c a 4 (s.withChannel r u) = busReadWith c a 4 s := by
  simp only [busReadWith_aligned c a _ ha, readRegion_withChannel s u h]

theorem busWrite_cmdAddr_actsOn (r : CmdReg) (v : Word) : ActsOn r (busWrite (cmdAddr r) 4 v) := by
  have h := exec_actsOn (decode r v)
  rwa [decode_cmdReg, ← funext (busWrite_cmdAddr r v)] at h

/-- A bus write acts on a channel when its address does not belong to the other one. -/
theorem busWrite_actsOn (h : (region Config.built a).channel ≠ some (otherReg r)) : ActsOn r (busWrite a 4 v) := by
  have hcommand {r' : CmdReg} (haddr : a.toNat = (cmdAddr r').toNat)
      (hr' : (region Config.built a).channel = some r') : ActsOn r (busWrite a 4 v) := by
    obtain rfl : r' = r := eq_of_ne_otherReg fun hother => h (hr'.trans (congrArg some hother))
    obtain rfl : a = cmdAddr r' := BitVec.eq_of_toNat_eq haddr
    exact busWrite_cmdAddr_actsOn r' v
  intro s t e
  rcases busWrite_cases a 4 v s with ⟨_, -, he⟩ | ⟨hal, hr, -⟩ | ⟨hal, hr, -⟩ | ⟨hal, htx, hrx, -⟩
  · exact nomatch he.symm.trans e
  · exact hcommand (r' := .tx) (toNat_eq_region_address hal hr nofun) (congrArg Region.channel hr) s t e
  · exact hcommand (r' := .rx) (toNat_eq_region_address hal hr nofun) (congrArg Region.channel hr) s t e
  · have hstore : busWrite a 4 v = fun s => .next (storeRegion s v (region Config.built a)) :=
      funext fun _ => busWriteWith_of_region ((accessRefusal_eq_none_iff a 4).1 hal).2 rfl htx hrx
    rw [hstore] at e ⊢
    exact storeRegion_actsOn v h s t e

/-- A bus write that completes is one aligned word (20_memory.md R54). -/
theorem aligned_of_busWrite_next {s t : State} (h : busWrite a 4 v s = .next t) : a.toNat % 4 = 0 := by
  by_contra ha
  obtain ⟨_, -, -, hrefused⟩ := nonWordAccessRefused s a 4 v (.inr ha)
  exact nomatch hrefused.symm.trans h

end Accesses

/-- Settles O49: each write acts on the channel of its side, so the two commute, and neither shows on the other side. -/
theorem channelsDoNotInterfere : Obligations.ChannelsDoNotInterfere := by
  intro s t u a b v w haside hbside ht hu
  have ha := aligned_of_busWrite_next ht
  have hb := aligned_of_busWrite_next hu
  have hachannel : (region Config.built a).channel ≠ some .rx := fun h => by
    have haddr := toNat_of_region_channel ha h
    have hrange := Region.address_of_channel_rx h
    omega
  have hbchannel : (region Config.built b).channel ≠ some .tx := fun h => by
    have haddr := toNat_of_region_channel hb h
    have hrange := Region.address_of_channel_tx h
    omega
  have hwritea : ActsOn .tx (busWrite a 4 v) := busWrite_actsOn hachannel
  have hwriteb : ActsOn .rx (busWrite b 4 w) := busWrite_actsOn hbchannel
  obtain ⟨htframe, -⟩ := hwritea s t ht
  obtain ⟨huframe, -⟩ := hwriteb s u hu
  refine ⟨by rw [htframe]; rfl, by rw [huframe]; rfl, ?_, ?_, hwritea.commute hwriteb ht hu⟩
  · rw [htframe]; exact busReadWith_withChannel s t hb hbchannel
  · rw [huframe]; exact busReadWith_withChannel s u ha hachannel

end Sys2Proof.Machine
